-- ==== Sys2Proof/Word.lean ====
section
/-! DEFINITION. The word and byte types of the rslc3vm CORE. -/

namespace Sys2Proof

/-- The machine word, the register, the address and the instruction: 16 bits (00_scope.md R5). -/
abbrev Word := BitVec 16

/-- A console byte (15_interfaces.md R33, R34). Memory has no bytes (20_memory.md R40, R44). -/
abbrev Byte := BitVec 8

end Sys2Proof
end

