-- ==== Sys2Proof/Syntax.lean ====
section
/-! DEFINITION. The instructions: one constructor for each row of the opcode table (30_encoding.md R67, R69).
Fields keep the widths of R61 and are not yet sign-extended. Bits that no field covers are not carried (R68). -/

namespace Sys2Proof

/-- The eight general registers (10_state.md R10, R15). -/
inductive Reg where
  | r0 | r1 | r2 | r3 | r4 | r5 | r6 | r7
  deriving DecidableEq, Repr

/-- The sixteen handlers that the 4-bit opcode selects (30_encoding.md R66; 40_fetch_decode_dispatch.md R94). -/
inductive Handler where
  | br | add | ld | st | jsr | and | ldr | str | rti | not | ldi | sti | jmp | res | lea | trap
  deriving DecidableEq, Repr

/-- An instruction. In `st`, `sti` and `str` the field `dr` of the word names the register stored, here `sr`. -/
inductive Instr where
  /-- BR (R150); `nzp` is the field of bits 11..9. -/
  | br (nzp : BitVec 3) (off9 : BitVec 9)
  /-- ADD, register form (R113). -/
  | addReg (dr sr1 sr2 : Reg)
  /-- ADD, immediate form (R114). -/
  | addImm (dr sr1 : Reg) (imm5 : BitVec 5)
  /-- LD (R132). -/
  | ld (dr : Reg) (off9 : BitVec 9)
  /-- ST (R136). -/
  | st (sr : Reg) (off9 : BitVec 9)
  /-- JSR, long form (R152). -/
  | jsr (off11 : BitVec 11)
  /-- JSRR, the register form of opcode 0x4 (R153). -/
  | jsrr (base : Reg)
  /-- AND, register form (R115). -/
  | andReg (dr sr1 sr2 : Reg)
  /-- AND, immediate form (R116). -/
  | andImm (dr sr1 : Reg) (imm5 : BitVec 5)
  /-- LDR (R134). -/
  | ldr (dr base : Reg) (off6 : BitVec 6)
  /-- STR (R138). -/
  | str (sr base : Reg) (off6 : BitVec 6)
  /-- RTI, a logged no-op here (R154). -/
  | rti
  /-- NOT (R117). -/
  | not (dr sr1 : Reg)
  /-- LDI (R133). -/
  | ldi (dr : Reg) (off9 : BitVec 9)
  /-- STI (R137). -/
  | sti (sr : Reg) (off9 : BitVec 9)
  /-- JMP (R151). -/
  | jmp (base : Reg)
  /-- RES, the reserved opcode 0xD, a logged no-op (R155). -/
  | res
  /-- LEA (R135). -/
  | lea (dr : Reg) (off9 : BitVec 9)
  /-- TRAP with a vector that has no row of its own (R170, R179). -/
  | trap (vec : BitVec 8)
  /-- TRAP x20 (R171). -/
  | getc
  /-- TRAP x21 (R172). -/
  | putc
  /-- TRAP x22 (R173). -/
  | puts
  /-- TRAP x23, IN, unimplemented (R174). -/
  | inTrap
  /-- TRAP x24, PUTSP, unimplemented (R175). -/
  | putsp
  /-- TRAP x25 (R176). -/
  | halt
  /-- TRAP x26 (R177). -/
  | inu16
  /-- TRAP x27 (R178). -/
  | outu16
  deriving DecidableEq, Repr

/-- The handler an instruction belongs to (R66, R94). -/
def Instr.handler : Instr → Handler
  | .br _ _ => .br
  | .addReg _ _ _ => .add
  | .addImm _ _ _ => .add
  | .ld _ _ => .ld
  | .st _ _ => .st
  | .jsr _ => .jsr
  | .jsrr _ => .jsr
  | .andReg _ _ _ => .and
  | .andImm _ _ _ => .and
  | .ldr _ _ _ => .ldr
  | .str _ _ _ => .str
  | .rti => .rti
  | .not _ _ => .not
  | .ldi _ _ => .ldi
  | .sti _ _ => .sti
  | .jmp _ => .jmp
  | .res => .res
  | .lea _ _ => .lea
  | .trap _ => .trap
  | .getc => .trap
  | .putc => .trap
  | .puts => .trap
  | .inTrap => .trap
  | .putsp => .trap
  | .halt => .trap
  | .inu16 => .trap
  | .outu16 => .trap

end Sys2Proof
end

