-- ==== Sys2Proof/WellFormed.lean ====
section
/-! DEFINITION. Which terms of `Instr` stand for instructions. Register numbers and field widths are checked by
their types (60_exceptions.md R207); what is left is that a vector with a row of its own (30_encoding.md R69) is
written as that row and not as a generic TRAP. -/

namespace Sys2Proof

/-- The vectors that R179 leaves to the generic TRAP row: 0x00..0x1F and 0x28..0xFF. -/
def vectorIsGeneric (vec : BitVec 8) : Bool :=
  decide (vec.toNat < 0x20) || decide (0x27 < vec.toNat)

/-- The check on an instruction. -/
def Instr.wellFormed : Instr → Bool
  | .br _ _ => true
  | .addReg _ _ _ => true
  | .addImm _ _ _ => true
  | .ld _ _ => true
  | .st _ _ => true
  | .jsr _ => true
  | .jsrr _ => true
  | .andReg _ _ _ => true
  | .andImm _ _ _ => true
  | .ldr _ _ _ => true
  | .str _ _ _ => true
  | .rti => true
  | .not _ _ => true
  | .ldi _ _ => true
  | .sti _ _ => true
  | .jmp _ => true
  | .res => true
  | .lea _ _ => true
  | .trap vec => vectorIsGeneric vec
  | .getc => true
  | .putc => true
  | .puts => true
  | .inTrap => true
  | .putsp => true
  | .halt => true
  | .inu16 => true
  | .outu16 => true

end Sys2Proof
end

