-- ==== Sys2Proof/Decode.lean ====
section
/-! DEFINITION. The decoder of 30_encoding.md, total on 16-bit words (R70, R74), and the encoder written from the
formats of R67. The machine refuses no word, so no word is rejected here. -/

namespace Sys2Proof

/-- The number a register has in a 3-bit field (R65). -/
def Reg.toBits : Reg → BitVec 3
  | .r0 => 0
  | .r1 => 1
  | .r2 => 2
  | .r3 => 3
  | .r4 => 4
  | .r5 => 5
  | .r6 => 6
  | .r7 => 7

/-- The register a 3-bit field names (R65): 0 for R0 to 7 for R7. -/
def Reg.ofBits (b : BitVec 3) : Reg :=
  match b.toNat with
  | 0 => .r0
  | 1 => .r1
  | 2 => .r2
  | 3 => .r3
  | 4 => .r4
  | 5 => .r5
  | 6 => .r6
  | _ => .r7

/-! The fields of R61. -/

/-- Bits 15..12. -/
def opcodeField (w : Word) : BitVec 4 := w.extractLsb' 12 4
/-- Bits 11..9, as the register written (or stored). -/
def drField (w : Word) : Reg := Reg.ofBits (w.extractLsb' 9 3)
/-- Bits 11..9, as the branch condition bits. -/
def nzpField (w : Word) : BitVec 3 := w.extractLsb' 9 3
/-- Bits 8..6. -/
def sr1Field (w : Word) : Reg := Reg.ofBits (w.extractLsb' 6 3)
/-- Bits 2..0. -/
def sr2Field (w : Word) : Reg := Reg.ofBits (w.extractLsb' 0 3)
/-- Bits 7..0. -/
def trapField (w : Word) : BitVec 8 := w.extractLsb' 0 8
/-- Bits 4..0. -/
def imm5Field (w : Word) : BitVec 5 := w.extractLsb' 0 5
/-- Bits 5..0. -/
def off6Field (w : Word) : BitVec 6 := w.extractLsb' 0 6
/-- Bits 8..0. -/
def off9Field (w : Word) : BitVec 9 := w.extractLsb' 0 9
/-- Bits 10..0. -/
def off11Field (w : Word) : BitVec 11 := w.extractLsb' 0 11
/-- `is_bit_set` (R62). -/
def isBitSet (w : Word) (n : Nat) : Bool := w.getLsbD n

/-- `OPCODE_MAP` (R66): the handler of opcode n stands at position n. Twelve of the numbers are the spec's decision
D1, the name RTI for 0x8 its decision D2 (log 8). -/
def opcodeMap : Vector Handler 16 :=
  #v[.br, .add, .ld, .st, .jsr, .and, .ldr, .str, .rti, .not, .ldi, .sti, .jmp, .res, .lea, .trap]

/-- The handler the opcode field selects (R94). -/
def handlerOf (op : BitVec 4) : Handler :=
  opcodeMap[op.toNat]'op.isLt

/-- The opcode value of a handler, read from the same table. -/
def opcodeOf (h : Handler) : BitVec 4 :=
  BitVec.ofNat 4 (opcodeMap.toList.idxOf h)

/-- TRAP sub-decoding by the low 8 bits (R69; log 16). -/
def decodeTrap (vec : BitVec 8) : Instr :=
  match vec.toNat with
  | 0x20 => .getc
  | 0x21 => .putc
  | 0x22 => .puts
  | 0x23 => .inTrap
  | 0x24 => .putsp
  | 0x25 => .halt
  | 0x26 => .inu16
  | 0x27 => .outu16
  | _ => .trap vec

/-- The decoder (R74): by the opcode, then by bit 5 for ADD and AND, bit 11 for JSR, the low byte for TRAP. -/
def decode (w : Word) : Instr :=
  match handlerOf (opcodeField w) with
  | .br => .br (nzpField w) (off9Field w)
  | .add =>
    if isBitSet w 5 then .addImm (drField w) (sr1Field w) (imm5Field w)
    else .addReg (drField w) (sr1Field w) (sr2Field w)
  | .ld => .ld (drField w) (off9Field w)
  | .st => .st (drField w) (off9Field w)
  | .jsr => if isBitSet w 11 then .jsr (off11Field w) else .jsrr (sr1Field w)
  | .and =>
    if isBitSet w 5 then .andImm (drField w) (sr1Field w) (imm5Field w)
    else .andReg (drField w) (sr1Field w) (sr2Field w)
  | .ldr => .ldr (drField w) (sr1Field w) (off6Field w)
  | .str => .str (drField w) (sr1Field w) (off6Field w)
  | .rti => .rti
  | .not => .not (drField w) (sr1Field w)
  | .ldi => .ldi (drField w) (off9Field w)
  | .sti => .sti (drField w) (off9Field w)
  | .jmp => .jmp (sr1Field w)
  | .res => .res
  | .lea => .lea (drField w) (off9Field w)
  | .trap => decodeTrap (trapField w)

/-! The formats of R67, bit 15 on the left. Ignored bits (letter `x`) are parameters. -/

/-- `oooo ddd iiiiiiiii`. -/
def fmtOff9 (op : BitVec 4) (d : BitVec 3) (i : BitVec 9) : Word := (op ++ d ++ i : BitVec (4 + 3 + 9))
/-- `oooo ddd aaa 0 xx bbb`. -/
def fmtReg (op : BitVec 4) (d a : BitVec 3) (x : BitVec 2) (b : BitVec 3) : Word :=
  (op ++ d ++ a ++ 0#1 ++ x ++ b : BitVec (4 + 3 + 3 + 1 + 2 + 3))
/-- `oooo ddd aaa 1 iiiii`. -/
def fmtImm5 (op : BitVec 4) (d a : BitVec 3) (i : BitVec 5) : Word :=
  (op ++ d ++ a ++ 1#1 ++ i : BitVec (4 + 3 + 3 + 1 + 5))
/-- `oooo ddd aaa iiiiii`; NOT and JMP have ignored bits where others have fields. -/
def fmtOff6 (op : BitVec 4) (d a : BitVec 3) (i : BitVec 6) : Word := (op ++ d ++ a ++ i : BitVec (4 + 3 + 3 + 6))
/-- `oooo 1 iiiiiiiiiii`. -/
def fmtOff11 (op : BitVec 4) (i : BitVec 11) : Word := (op ++ 1#1 ++ i : BitVec (4 + 1 + 11))
/-- `oooo 0 xx aaa xxxxxx`. -/
def fmtBase (op : BitVec 4) (x : BitVec 2) (a : BitVec 3) (y : BitVec 6) : Word :=
  (op ++ 0#1 ++ x ++ a ++ y : BitVec (4 + 1 + 2 + 3 + 6))
/-- `oooo xxxxxxxxxxxx`. -/
def fmtNone (op : BitVec 4) (x : BitVec 12) : Word := (op ++ x : BitVec (4 + 12))
/-- `oooo xxxx vvvvvvvv`. -/
def fmtTrap (op : BitVec 4) (x : BitVec 4) (v : BitVec 8) : Word := (op ++ x ++ v : BitVec (4 + 4 + 8))

/-- The encoder. Ignored bits are written as R68 says the reference assembler writes them: 0, and 111111 in bits 5..0
of NOT. -/
def encode : Instr → Word
  | .br nzp off => fmtOff9 (opcodeOf .br) nzp off
  | .addReg dr sr1 sr2 => fmtReg (opcodeOf .add) dr.toBits sr1.toBits 0 sr2.toBits
  | .addImm dr sr1 imm => fmtImm5 (opcodeOf .add) dr.toBits sr1.toBits imm
  | .ld dr off => fmtOff9 (opcodeOf .ld) dr.toBits off
  | .st sr off => fmtOff9 (opcodeOf .st) sr.toBits off
  | .jsr off => fmtOff11 (opcodeOf .jsr) off
  | .jsrr base => fmtBase (opcodeOf .jsr) 0 base.toBits 0
  | .andReg dr sr1 sr2 => fmtReg (opcodeOf .and) dr.toBits sr1.toBits 0 sr2.toBits
  | .andImm dr sr1 imm => fmtImm5 (opcodeOf .and) dr.toBits sr1.toBits imm
  | .ldr dr base off => fmtOff6 (opcodeOf .ldr) dr.toBits base.toBits off
  | .str sr base off => fmtOff6 (opcodeOf .str) sr.toBits base.toBits off
  | .rti => fmtNone (opcodeOf .rti) 0
  | .not dr sr1 => fmtOff6 (opcodeOf .not) dr.toBits sr1.toBits 0b111111
  | .ldi dr off => fmtOff9 (opcodeOf .ldi) dr.toBits off
  | .sti sr off => fmtOff9 (opcodeOf .sti) sr.toBits off
  | .jmp base => fmtOff6 (opcodeOf .jmp) 0 base.toBits 0
  | .res => fmtNone (opcodeOf .res) 0
  | .lea dr off => fmtOff9 (opcodeOf .lea) dr.toBits off
  | .trap vec => fmtTrap (opcodeOf .trap) 0 vec
  | .getc => fmtTrap (opcodeOf .trap) 0 0x20
  | .putc => fmtTrap (opcodeOf .trap) 0 0x21
  | .puts => fmtTrap (opcodeOf .trap) 0 0x22
  | .inTrap => fmtTrap (opcodeOf .trap) 0 0x23
  | .putsp => fmtTrap (opcodeOf .trap) 0 0x24
  | .halt => fmtTrap (opcodeOf .trap) 0 0x25
  | .inu16 => fmtTrap (opcodeOf .trap) 0 0x26
  | .outu16 => fmtTrap (opcodeOf .trap) 0 0x27

/-- The bits of a word that the form of R67 gives a meaning: 1 where R67 has no letter `x` (R68). -/
def usedBits : Instr → Word
  | .br _ _ => 0xFFFF
  | .addReg _ _ _ => 0xFFE7
  | .addImm _ _ _ => 0xFFFF
  | .ld _ _ => 0xFFFF
  | .st _ _ => 0xFFFF
  | .jsr _ => 0xFFFF
  | .jsrr _ => 0xF9C0
  | .andReg _ _ _ => 0xFFE7
  | .andImm _ _ _ => 0xFFFF
  | .ldr _ _ _ => 0xFFFF
  | .str _ _ _ => 0xFFFF
  | .rti => 0xF000
  | .not _ _ => 0xFFC0
  | .ldi _ _ => 0xFFFF
  | .sti _ _ => 0xFFFF
  | .jmp _ => 0xF1C0
  | .res => 0xF000
  | .lea _ _ => 0xFFFF
  | .trap _ => 0xF0FF
  | .getc => 0xF0FF
  | .putc => 0xF0FF
  | .puts => 0xF0FF
  | .inTrap => 0xF0FF
  | .putsp => 0xF0FF
  | .halt => 0xF0FF
  | .inu16 => 0xF0FF
  | .outu16 => 0xF0FF

/-- The instruction the decoder reads from a word numbered as the opcode table numbers it. An instruction is one
word of 16 bits (R60), so a longer one, or a number that does not fit `nbits` bits, is no instruction. -/
def decodeTableWord (nbits w : Nat) : Option Instr :=
  if nbits ≤ 16 ∧ w < 2 ^ nbits then some (decode (BitVec.ofNat 16 w)) else none

end Sys2Proof
end

