-- ==== Sys2Proof/Machine/State.lean ====
section
/-! DEFINITION. The state of the CORE as plain data (10_state.md), its reset value (R18), and the reasons a host
request is turned away. -/

namespace Sys2Proof.Machine

/-- The eight general registers, 16 bits each (R10). -/
structure Regs where
  r0 : Word
  r1 : Word
  r2 : Word
  r3 : Word
  r4 : Word
  r5 : Word
  r6 : Word
  r7 : Word
  deriving DecidableEq, Repr

/-- One listed word of memory: its word address and its content (20_memory.md R40; log 1). -/
abbrev Cell := Nat × Word

/-- Memory: the words that are not zero, by rising address. An address not listed reads as 0x0000, the reset content
of every word (R18). -/
abbrev Memory := List Cell

/-- The canonical form: addresses strictly rising and below 65536, no word listed that is zero. -/
abbrev Memory.wf (m : Memory) : Prop :=
  m.Pairwise (fun c d => c.1 < d.1) ∧ ∀ c ∈ m, c.1 < 65536 ∧ c.2 ≠ 0

/-- The console output events (15_interfaces.md R34). -/
inductive OutEvent where
  | outByte (b : Byte)
  | outString (ws : List Word)
  | outHex (v : Word)
  deriving DecidableEq, Repr

/-- The logged conditions (60_exceptions.md R201). -/
inductive LogEvent where
  | unimplementedOpcode (op : BitVec 4)
  | reservedTrap (vec : BitVec 8)
  | hexParseFailure
  deriving DecidableEq, Repr

/-- The trace record of a step (40_fetch_decode_dispatch.md R95). `addr` is the instruction's own address: which PC
the printed line shows is open (`TraceRecord.shownPc`). -/
structure TraceRecord where
  addr : Word
  cond : BitVec 3
  regs : Regs
  ir   : Word
  name : Handler
  deriving DecidableEq, Repr

/-- What goes to the observer port (15_interfaces.md R35). -/
inductive ObsRecord where
  | trace (t : TraceRecord)
  | log (e : LogEvent)
  deriving DecidableEq, Repr

/-- A step that has begun and not completed (40_fetch_decode_dispatch.md R98): a GETC or INU16 that waits for the
host's answer (44_trap.md R182), or a PUTS whose loop has met no zero word (R173). -/
inductive Pending where
  | inByte
  | inLine
  | putsLoop
  deriving DecidableEq, Repr

/-- The machine state (10_state.md R10 to R14) and, after it, what R21 has the model carry of the host. -/
structure State where
  /-- R0 to R7 (R10). -/
  regs : Regs
  /-- The program counter (R11). -/
  pc : Word
  /-- COND (R12): bit 2 NEG, bit 1 ZERO, bit 0 POS (spec decision D3, log 9). -/
  cond : BitVec 3
  /-- RUN (R13). -/
  run : Bool
  /-- The memory (R14). -/
  mem : Memory
  /-- Whether a HALT has executed since the last reset (15_interfaces.md R31; log 4). -/
  halted : Bool
  /-- The step in progress, if one has not completed (log 2, log 6). -/
  pending : Option Pending
  /-- The bytes the host has ready for `ConsoleInByte`, first to be given first (15_interfaces.md R33; log 5). -/
  byteAnswers : List Byte
  /-- The outcomes the host has ready for `ConsoleInHexLine` (R33; log 5). -/
  lineAnswers : List (Option Word)
  /-- Console output so far (15_interfaces.md R34). -/
  out : List OutEvent
  /-- What the observer port has received so far (15_interfaces.md R35; log 14). -/
  observer : List ObsRecord
  deriving DecidableEq, Repr

/-- Why the machine stops with a fault: never. The CORE has no fault outcome (60_exceptions.md R200;
40_fetch_decode_dispatch.md R99), so this type is empty. -/
inductive Fault where
  deriving DecidableEq, Repr

/-- Why something is refused. The last five turn away a request of the HOST and are raised by `hostMove` only; no
instruction is refused (40_fetch_decode_dispatch.md R99). -/
inductive Refusal where
  /-- An instruction without a meaning yet: raised by an arm of `exec` (none does). Safe. -/
  | notModelled (mnemonic : String)
  /-- `start` while `RUN = 1` or after a HALT (15_interfaces.md R31; 70_reset_and_hazards.md R223). Safe. -/
  | startNotAccepted
  /-- `reset` while `RUN = 1` (10_state.md R22; log 17). Safe. -/
  | resetWhileRunning
  /-- An image written while `RUN = 1` (15_interfaces.md R38). Safe. -/
  | loadWhileRunning
  /-- An image of more than 0xD000 words (20_memory.md R52, D12). Safe. -/
  | imageTooLong
  /-- An image of an odd number of bytes (D12). Safe. -/
  | imageOddLength
  deriving DecidableEq, Repr

/-- All registers zero. -/
def Regs.zero : Regs := ⟨0, 0, 0, 0, 0, 0, 0, 0⟩

/-- The state after reset (10_state.md R18; 70_reset_and_hazards.md R220). -/
def State.reset : State where
  regs := Regs.zero
  pc := 0x0000
  cond := 0b000
  run := false
  mem := []
  halted := false
  pending := none
  byteAnswers := []
  lineAnswers := []
  out := []
  observer := []

end Sys2Proof.Machine
end

