-- ==== Sys2Proof/Machine/Ops.lean ====
section
/-! DEFINITION. The operations over registers, memory and ports that every meaning is written with. The machine
raises no exception (60_exceptions.md R200) and TRAP saves nothing (R204), so there is no exception entry here. -/

namespace Sys2Proof.Machine

/-! Registers (10_state.md R10). -/

/-- Read of one register of the file. -/
def Regs.get (rs : Regs) : Reg → Word
  | .r0 => rs.r0
  | .r1 => rs.r1
  | .r2 => rs.r2
  | .r3 => rs.r3
  | .r4 => rs.r4
  | .r5 => rs.r5
  | .r6 => rs.r6
  | .r7 => rs.r7

/-- Write of one register of the file. No register is hard-wired (R10). -/
def Regs.set (rs : Regs) (r : Reg) (v : Word) : Regs :=
  match r with
  | .r0 => { rs with r0 := v }
  | .r1 => { rs with r1 := v }
  | .r2 => { rs with r2 := v }
  | .r3 => { rs with r3 := v }
  | .r4 => { rs with r4 := v }
  | .r5 => { rs with r5 := v }
  | .r6 => { rs with r6 := v }
  | .r7 => { rs with r7 := v }

/-- `x[i]` (00_scope.md R7). -/
def State.readReg (s : State) (r : Reg) : Word := s.regs.get r

/-- `x[i] <- v`. -/
def State.writeReg (s : State) (r : Reg) (v : Word) : State := { s with regs := s.regs.set r v }

/-- `pc <- v`. -/
def State.setPc (s : State) (v : Word) : State := { s with pc := v }

/-! Memory (20_memory.md R40, R53). -/

/-- The content listed for an address, or the reset content 0x0000 (10_state.md R18). -/
def Memory.lookup (m : Memory) (k : Nat) : Word :=
  match m with
  | [] => 0
  | c :: rest => if c.1 = k then c.2 else Memory.lookup rest k

/-- The list without an address. -/
def Memory.erase (m : Memory) (k : Nat) : Memory :=
  match m with
  | [] => []
  | c :: rest => if c.1 = k then Memory.erase rest k else c :: Memory.erase rest k

/-- A cell put before the first cell of a higher address. -/
def Memory.insert (m : Memory) (k : Nat) (v : Word) : Memory :=
  match m with
  | [] => [(k, v)]
  | c :: rest => if k < c.1 then (k, v) :: c :: rest else c :: Memory.insert rest k v

/-- `MemRead(addr, 1)`: one whole word, never a fault (R53). -/
def Memory.read (m : Memory) (a : Word) : Word := Memory.lookup m a.toNat

/-- `MemWrite(addr, 1, v)`: one whole word, never a fault (R53). Writing zero unlists the address. -/
def Memory.write (m : Memory) (a v : Word) : Memory :=
  if v = 0 then Memory.erase m a.toNat else Memory.insert (Memory.erase m a.toNat) a.toNat v

/-- Words written one after the other from an address on, the address wrapping (R41). -/
def Memory.writeWords (m : Memory) (a : Word) (ws : List Word) : Memory :=
  match ws with
  | [] => m
  | w :: rest => Memory.writeWords (m.write a w) (a + 1) rest

/-- `MemRead` on the state. -/
def State.readMem (s : State) (a : Word) : Word := s.mem.read a

/-- `MemWrite` on the state. -/
def State.writeMem (s : State) (a v : Word) : State := { s with mem := s.mem.write a v }

/-! Ports (15_interfaces.md R33 to R35). -/

/-- `ConsoleOut(e)`: always completes (44_trap.md R183). -/
def State.consoleOut (s : State) (e : OutEvent) : State := { s with out := s.out ++ [e] }

/-- A record sent to the observer port. -/
def State.observe (s : State) (r : ObsRecord) : State := { s with observer := s.observer ++ [r] }

/-- `log e` (60_exceptions.md R201): on the observer port only. -/
def State.logEvent (s : State) (e : LogEvent) : State := s.observe (.log e)

/-- The step does not complete now (44_trap.md R182, R173). -/
def State.hold (s : State) (p : Pending) : State := { s with pending := some p }

/-- The step completes. -/
def State.complete (s : State) : State := { s with pending := none }

/-- The origin: where images are loaded and execution begins (20_memory.md R46; 00_scope.md R5; log 16). -/
def origin : Word := 0x3000

end Sys2Proof.Machine
end

