-- ==== Sys2Proof/Machine/Flags.lean ====
section
/-! DEFINITION. flag_logic_pos_zero_neg (41_alu_flags.md R111, R112). The three bit values are the spec's decision D3
(10_state.md R12; log 9). -/

namespace Sys2Proof.Machine

/-- POS. -/
def condPos : BitVec 3 := 0b001
/-- ZERO. -/
def condZero : BitVec 3 := 0b010
/-- NEG. -/
def condNeg : BitVec 3 := 0b100

/-- `flags(v)` (R111). -/
def flagsOf (v : Word) : BitVec 3 :=
  if v = 0 then condZero else if v.getLsbD 15 then condNeg else condPos

/-- `setcc(v)` (R112). -/
def State.setcc (s : State) (v : Word) : State := { s with cond := flagsOf v }

/-- `x[dr] <- v; setcc(v)`: how each of the seven flag-updating instructions ends (R112). -/
def State.writeDest (s : State) (dr : Reg) (v : Word) : State := (s.writeReg dr v).setcc v

end Sys2Proof.Machine
end

