-- ==== Sys2Proof/Machine/Operands.lean ====
section
/-! DEFINITION. alu_16bit (41_alu_flags.md R110), sign extension (30_encoding.md R63), and the addressing modes
(42_load_store.md R130, R131, R139). In every function of a state, the state's PC is the incremented one (40 R92). -/

namespace Sys2Proof.Machine

/-- `add(a, b)`, modulo 2^16, no status (R110, R118). -/
def aluAdd (a b : Word) : Word := a + b
/-- `and(a, b)`. -/
def aluAnd (a b : Word) : Word := a &&& b
/-- `not(a)`. -/
def aluNot (a : Word) : Word := ~~~a

/-- `sext_n(v)` (30_encoding.md R63). -/
def sext {n : Nat} (v : BitVec n) : Word := v.signExtend 16

/-- `zext_n(v)` (00_scope.md R7). -/
def zext {n : Nat} (v : BitVec n) : Word := v.setWidth 16

/-- `ea_pc`: PC-relative effective address (R130). -/
def eaPc (s : State) (off9 : BitVec 9) : Word := aluAdd s.pc (sext off9)

/-- `ea_base`: base plus offset (R131). -/
def eaBase (s : State) (base : Reg) (off6 : BitVec 6) : Word := aluAdd (s.readReg base) (sext off6)

/-- `ea_ind`: the word at `ea_pc`, used as an address (R139). -/
def eaInd (s : State) (off9 : BitVec 9) : Word := s.readMem (eaPc s off9)

/-- `JSR_PCREL` (00_scope.md R6): false, the spec's decision D4 (90_conflicts.md C1; log 10). -/
def jsrPcRel : Bool := false

/-- The target of the long form of JSR for either value of `JSR_PCREL` (43_control.md R152). -/
def jsrTarget (pcRel : Bool) (pc : Word) (off11 : BitVec 11) : Word :=
  if pcRel then aluAdd pc (sext off11) else sext off11

/-- Whether a BR is taken: COND and the condition bits of the word meet (43_control.md R150). -/
def branchTaken (cond nzp : BitVec 3) : Bool := cond &&& nzp != 0

end Sys2Proof.Machine
end

