-- ==== Sys2Proof/Machine/Alu.lean ====
section
/-! DEFINITION. ADD, AND and NOT (41_alu_flags.md). In every meaning of the model the state is the one after the
fetch: the PC is already incremented (40_fetch_decode_dispatch.md R92). -/

namespace Sys2Proof.Machine

/-- ADD, register form (R113). -/
def execAddReg (dr sr1 sr2 : Reg) (s : State) : Host.Outcome State Fault Refusal :=
  .next (s.writeDest dr (aluAdd (s.readReg sr1) (s.readReg sr2)))

/-- ADD, immediate form (R114). -/
def execAddImm (dr sr1 : Reg) (imm5 : BitVec 5) (s : State) : Host.Outcome State Fault Refusal :=
  .next (s.writeDest dr (aluAdd (s.readReg sr1) (sext imm5)))

/-- AND, register form (R115). -/
def execAndReg (dr sr1 sr2 : Reg) (s : State) : Host.Outcome State Fault Refusal :=
  .next (s.writeDest dr (aluAnd (s.readReg sr1) (s.readReg sr2)))

/-- AND, immediate form (R116). -/
def execAndImm (dr sr1 : Reg) (imm5 : BitVec 5) (s : State) : Host.Outcome State Fault Refusal :=
  .next (s.writeDest dr (aluAnd (s.readReg sr1) (sext imm5)))

/-- NOT (R117). -/
def execNot (dr sr1 : Reg) (s : State) : Host.Outcome State Fault Refusal :=
  .next (s.writeDest dr (aluNot (s.readReg sr1)))

end Sys2Proof.Machine
end

