-- ==== Sys2Proof/Machine/Control.lean ====
section
/-! DEFINITION. BR, JMP, JSR, JSRR and the two no-op opcodes RTI and RES (43_control.md). -/

namespace Sys2Proof.Machine

/-- BR (R150): with COND = 0b000 it is never taken. -/
def execBr (nzp : BitVec 3) (off9 : BitVec 9) (s : State) : Host.Outcome State Fault Refusal :=
  .next (if branchTaken s.cond nzp then s.setPc (eaPc s off9) else s)

/-- JMP (R151). -/
def execJmp (base : Reg) (s : State) : Host.Outcome State Fault Refusal :=
  .next (s.setPc (s.readReg base))

/-- The save of the return address that JSR and JSRR begin with (R152, R153). -/
def State.link (s : State) : State := s.writeReg .r7 s.pc

/-- JSR, long form (R152): the target is the sign-extended offset alone (`jsrPcRel` is false). -/
def execJsr (off11 : BitVec 11) (s : State) : Host.Outcome State Fault Refusal :=
  .next (s.link.setPc (jsrTarget jsrPcRel s.pc off11))

/-- JSRR (R153): the base is read AFTER R7 is written (the spec's decision D5; log 11), so JSRR R7 falls through. -/
def execJsrr (base : Reg) (s : State) : Host.Outcome State Fault Refusal :=
  .next (s.link.setPc (s.link.readReg base))

/-- RTI (R154): logged, no state change. -/
def execRti (s : State) : Host.Outcome State Fault Refusal :=
  .next (s.logEvent (.unimplementedOpcode 0x8))

/-- RES (R155): logged, no state change. -/
def execRes (s : State) : Host.Outcome State Fault Refusal :=
  .next (s.logEvent (.unimplementedOpcode 0xD))

end Sys2Proof.Machine
end

