-- ==== Sys2Proof/Machine/LoadStore.lean ====
section
/-! DEFINITION. load_store_unit: LD, LDI, LDR, LEA, ST, STI, STR (42_load_store.md). No access can fail. -/

namespace Sys2Proof.Machine

/-- LD (R132). -/
def execLd (dr : Reg) (off9 : BitVec 9) (s : State) : Host.Outcome State Fault Refusal :=
  .next (s.writeDest dr (s.readMem (eaPc s off9)))

/-- LDI (R133): the flags come from the second word read. -/
def execLdi (dr : Reg) (off9 : BitVec 9) (s : State) : Host.Outcome State Fault Refusal :=
  .next (s.writeDest dr (s.readMem (eaInd s off9)))

/-- LDR (R134). -/
def execLdr (dr base : Reg) (off6 : BitVec 6) (s : State) : Host.Outcome State Fault Refusal :=
  .next (s.writeDest dr (s.readMem (eaBase s base off6)))

/-- LEA (R135): no memory access; the flags ARE written. -/
def execLea (dr : Reg) (off9 : BitVec 9) (s : State) : Host.Outcome State Fault Refusal :=
  .next (s.writeDest dr (eaPc s off9))

/-- ST (R136). -/
def execSt (sr : Reg) (off9 : BitVec 9) (s : State) : Host.Outcome State Fault Refusal :=
  .next (s.writeMem (eaPc s off9) (s.readReg sr))

/-- STI (R137). -/
def execSti (sr : Reg) (off9 : BitVec 9) (s : State) : Host.Outcome State Fault Refusal :=
  .next (s.writeMem (eaInd s off9) (s.readReg sr))

/-- STR (R138). -/
def execStr (sr base : Reg) (off6 : BitVec 6) (s : State) : Host.Outcome State Fault Refusal :=
  .next (s.writeMem (eaBase s base off6) (s.readReg sr))

end Sys2Proof.Machine
end

