-- ==== Sys2Proof/Machine/Trap.lean ====
section
/-! DEFINITION. trap_dispatcher: the routines of TRAP (44_trap.md), served inside the step. No routine writes R7,
COND or memory (R180). A routine that cannot complete now leaves `pending` set, and the step is taken up again by
`resume` (log 2, log 6). -/

namespace Sys2Proof.Machine

/-- The words of a PUTS string from an address on, up to the first zero word; none if the given number of reads
meets no zero word (R173; 20_memory.md R55). -/
def scanString : Nat → Memory → Word → Option (List Word)
  | 0, _, _ => none
  | n + 1, m, a =>
    if m.read a = 0 then some [] else (scanString n m (a + 1)).map (fun ws => m.read a :: ws)

/-- After this many reads of PUTS every word of memory has been read. -/
def memWords : Nat := 65536

/-- GETC (R171): holds while the host has given no byte (R182). -/
def trapGetc (s : State) : State :=
  match s.byteAnswers with
  | [] => s.hold .inByte
  | b :: rest => { s.complete.writeReg .r0 (zext b) with byteAnswers := rest }

/-- PUTC (R172): the low byte of R0. -/
def trapPutc (s : State) : State := s.consoleOut (.outByte ((s.readReg .r0).extractLsb' 0 8))

/-- PUTS (R173): one event after the loop; with no zero word the loop never ends. -/
def trapPuts (s : State) : State :=
  match scanString memWords s.mem (s.readReg .r0) with
  | some ws => s.complete.consoleOut (.outString ws)
  | none => s.hold .putsLoop

/-- A reserved vector (R174, R175, R179): logged, no state change. -/
def trapReserved (vec : BitVec 8) (s : State) : State := s.logEvent (.reservedTrap vec)

/-- HALT (R176). -/
def trapHalt (s : State) : State := { s with run := false, halted := true }

/-- INU16 (R177): holds while the host has given no line (R182). -/
def trapInu16 (s : State) : State :=
  match s.lineAnswers with
  | [] => s.hold .inLine
  | some v :: rest => { s.complete.writeReg .r0 v with lineAnswers := rest }
  | none :: rest => { s.complete.logEvent .hexParseFailure with lineAnswers := rest }

/-- OUTU16 (R178). -/
def trapOutu16 (s : State) : State := s.consoleOut (.outHex (s.readReg .r0))

/-- The dispatch of R170, by the vector. -/
def trapDispatch (vec : BitVec 8) (s : State) : State :=
  match vec.toNat with
  | 0x20 => trapGetc s
  | 0x21 => trapPutc s
  | 0x22 => trapPuts s
  | 0x23 => trapReserved vec s
  | 0x24 => trapReserved vec s
  | 0x25 => trapHalt s
  | 0x26 => trapInu16 s
  | 0x27 => trapOutu16 s
  | _ => trapReserved vec s

/-- A step that has not completed is taken up again: no fetch, no PC change (R182). -/
def resume (p : Pending) (s : State) : State :=
  match p with
  | .inByte => trapGetc s
  | .inLine => trapInu16 s
  | .putsLoop => trapPuts s

/-- TRAP, any vector (R170). The decoder gives it the vectors of R179 only. -/
def execTrap (vec : BitVec 8) (s : State) : Host.Outcome State Fault Refusal := .next (trapDispatch vec s)

/-- TRAP x20. -/
def execGetc (s : State) : Host.Outcome State Fault Refusal := .next (trapGetc s)

/-- TRAP x21. -/
def execPutc (s : State) : Host.Outcome State Fault Refusal := .next (trapPutc s)

/-- TRAP x22. -/
def execPuts (s : State) : Host.Outcome State Fault Refusal := .next (trapPuts s)

/-- TRAP x23 (R174): unimplemented, consumes no input. -/
def execIn (s : State) : Host.Outcome State Fault Refusal := .next (trapReserved 0x23 s)

/-- TRAP x24 (R175): unimplemented, reads no memory and outputs nothing. -/
def execPutsp (s : State) : Host.Outcome State Fault Refusal := .next (trapReserved 0x24 s)

/-- TRAP x25. -/
def execHalt (s : State) : Host.Outcome State Fault Refusal := .next (trapHalt s)

/-- TRAP x26. -/
def execInu16 (s : State) : Host.Outcome State Fault Refusal := .next (trapInu16 s)

/-- TRAP x27. -/
def execOutu16 (s : State) : Host.Outcome State Fault Refusal := .next (trapOutu16 s)

end Sys2Proof.Machine
end

