-- ==== Sys2Proof/Machine/Dispatch.lean ====
section
/-! DEFINITION. dispatch_mux: exactly one meaning per instruction (40_fetch_decode_dispatch.md R94). -/

namespace Sys2Proof.Machine

def exec (i : Instr) (s : State) : Host.Outcome State Fault Refusal :=
  match i with
  | .br nzp off9 => Sys2Proof.Machine.execBr nzp off9 s
  | .addReg dr sr1 sr2 => Sys2Proof.Machine.execAddReg dr sr1 sr2 s
  | .addImm dr sr1 imm5 => Sys2Proof.Machine.execAddImm dr sr1 imm5 s
  | .ld dr off9 => Sys2Proof.Machine.execLd dr off9 s
  | .st sr off9 => Sys2Proof.Machine.execSt sr off9 s
  | .jsr off11 => Sys2Proof.Machine.execJsr off11 s
  | .jsrr base => Sys2Proof.Machine.execJsrr base s
  | .andReg dr sr1 sr2 => Sys2Proof.Machine.execAndReg dr sr1 sr2 s
  | .andImm dr sr1 imm5 => Sys2Proof.Machine.execAndImm dr sr1 imm5 s
  | .ldr dr base off6 => Sys2Proof.Machine.execLdr dr base off6 s
  | .str sr base off6 => Sys2Proof.Machine.execStr sr base off6 s
  | .rti => Sys2Proof.Machine.execRti s
  | .not dr sr1 => Sys2Proof.Machine.execNot dr sr1 s
  | .ldi dr off9 => Sys2Proof.Machine.execLdi dr off9 s
  | .sti sr off9 => Sys2Proof.Machine.execSti sr off9 s
  | .jmp base => Sys2Proof.Machine.execJmp base s
  | .res => Sys2Proof.Machine.execRes s
  | .lea dr off9 => Sys2Proof.Machine.execLea dr off9 s
  | .trap vec => Sys2Proof.Machine.execTrap vec s
  | .getc => Sys2Proof.Machine.execGetc s
  | .putc => Sys2Proof.Machine.execPutc s
  | .puts => Sys2Proof.Machine.execPuts s
  | .inTrap => Sys2Proof.Machine.execIn s
  | .putsp => Sys2Proof.Machine.execPutsp s
  | .halt => Sys2Proof.Machine.execHalt s
  | .inu16 => Sys2Proof.Machine.execInu16 s
  | .outu16 => Sys2Proof.Machine.execOutu16 s

end Sys2Proof.Machine
end

