-- ==== Sys2Proof/Config.lean ====
section
/-! DEFINITION. The parameters the spec leaves OPEN (00_scope.md R6): constants without a body, so that nothing
proved can depend on their value (log 13). No step of the machine reads one of them: they stand between the machine's
events and the text or bytes of the world outside it. -/

namespace Sys2Proof

/-- `TRACE_PC_POST` (92_eei_decisions.md D19): whether the trace shows the PC after the fetch increment. -/
opaque Config.tracePcPost : Bool

/-- `PUTS_CHAR_MAP` (D14): the bytes by which the console renders one 16-bit character of PUTS. -/
opaque Config.putsCharMap : Word → List Byte

/-- `HEX_FORMAT` (D17): the text the console prints for the value of OUTU16. -/
opaque Config.hexFormat : Word → List Byte

/-- `HEX_PARSE` (D16): how the host reads one input line; `none` where it does not parse. -/
opaque Config.hexParse : List Byte → Option Word

/-- `LOADER_BYTE_ORDER` (D11): whether the first of two file bytes is the low half of the word. -/
opaque Config.loaderLittleEndian : Bool

end Sys2Proof
end

