-- ==== Sys2Proof/Machine/Fetch.lean ====
section
/-! DEFINITION. fetch_unit (40_fetch_decode_dispatch.md R91, R92) and the observer's record of a step (R95). -/

namespace Sys2Proof.Machine

/-- `IR <- MemRead(PC, 1)` (R91). -/
def fetchWord (s : State) : Word := s.readMem s.pc

/-- The record of R95: what the instruction starts with. -/
def traceOf (s : State) : TraceRecord where
  addr := s.pc
  cond := s.cond
  regs := s.regs
  ir := fetchWord s
  name := handlerOf (opcodeField (fetchWord s))

/-- The state the handler starts with: the PC advanced (R92) and the record sent (R90). -/
def State.afterFetch (s : State) : State :=
  (s.setPc (aluAdd s.pc 1)).observe (.trace (traceOf s))

/-- The PC field of the trace line, by the open parameter `TRACE_PC_POST` (R95, D19). -/
def TraceRecord.shownPc (t : TraceRecord) : Word :=
  if Config.tracePcPost then aluAdd t.addr 1 else t.addr

end Sys2Proof.Machine
end

