-- ==== Sys2Proof/Machine/HostPort.lean ====
section
/-! DEFINITION. What the host can do to the machine, between steps (15_interfaces.md R30, R31, R33, R38), and how
the console renders what the machine sends it. None of it is part of a step (log 7). -/

namespace Sys2Proof.Machine

/-- The host's moves (R38). -/
inductive HostMove where
  /-- The `reset` request (R30), accepted only while `RUN = 0` (10_state.md R22; log 17). -/
  | reset
  /-- The loader writes an image of words at the origin (20_memory.md R52). -/
  | load (image : List Word)
  /-- The loader writes an image given as file bytes (R52, D11). -/
  | loadBytes (bytes : List Byte)
  /-- The `start` request (R31). -/
  | start
  /-- The host answers a `ConsoleInByte` (R33). -/
  | answerByte (b : Byte)
  /-- The host answers a `ConsoleInHexLine` with its outcome (R33). -/
  | answerLine (r : Option Word)
  /-- The host answers a `ConsoleInHexLine` with the text of a line, which `HEX_PARSE` reads (R33, D16). -/
  | answerText (text : List Byte)
  deriving DecidableEq, Repr

/-- Reset (R30; 70_reset_and_hazards.md R220). The console answers and the two event lists are the host's and are
not reset by the core (10_state.md R18). -/
def State.hostReset (s : State) : State :=
  { State.reset with
    byteAnswers := s.byteAnswers, lineAnswers := s.lineAnswers, out := s.out, observer := s.observer }

/-- Start (70_reset_and_hazards.md R221). -/
def State.begin (s : State) : State := { s with pc := origin, run := true }

/-- Whether `start` is accepted (R31): `RUN = 0` and no HALT since the last reset. -/
def startAccepted (s : State) : Bool := !s.run && !s.halted

/-- The longest image, in words (20_memory.md R52, D12). -/
def maxImageWords : Nat := 0xD000

/-- One word from two consecutive file bytes, by `LOADER_BYTE_ORDER` (R52, D11). -/
def pairBytes (littleEndian : Bool) (first second : Byte) : Word :=
  if littleEndian then (second ++ first : BitVec (8 + 8)) else (first ++ second : BitVec (8 + 8))

/-- The words of an image given as bytes; none for an odd number of bytes (D12). -/
def imageOfBytes (littleEndian : Bool) : List Byte → Option (List Word)
  | [] => some []
  | [_] => none
  | b :: c :: rest => (imageOfBytes littleEndian rest).map (fun ws => pairBytes littleEndian b c :: ws)

/-- The loader (R52): only while `RUN = 0` (R38), only an image that fits (D12). That a load is also accepted after a
HALT, before the next reset, is a DESIGN CHOICE (log 18). -/
def loadImage (image : List Word) (s : State) : Host.Outcome State Fault Refusal :=
  if s.run then .refused .loadWhileRunning
  else if maxImageWords < image.length then .refused .imageTooLong
  else .next { s with mem := s.mem.writeWords origin image }

/-- A move of the host: accepted with its effect, or refused by name. While `RUN = 1` only answers are accepted, since
nothing outside the core changes the machine then (10_state.md R22, decision D7); that this holds of `reset`, which R30
gives no condition, is DEDUCED (log 17). -/
def hostMove (m : HostMove) (s : State) : Host.Outcome State Fault Refusal :=
  match m with
  | .reset => if s.run then .refused .resetWhileRunning else .next s.hostReset
  | .load image => loadImage image s
  | .loadBytes bytes =>
    match imageOfBytes Config.loaderLittleEndian bytes with
    | some image => loadImage image s
    | none => .refused .imageOddLength
  | .start => if startAccepted s then .next s.begin else .refused .startNotAccepted
  | .answerByte b => .next { s with byteAnswers := s.byteAnswers ++ [b] }
  | .answerLine r => .next { s with lineAnswers := s.lineAnswers ++ [r] }
  | .answerText text => .next { s with lineAnswers := s.lineAnswers ++ [Config.hexParse text] }

/-- How the console renders one event: outside the block, by the open `PUTS_CHAR_MAP` and `HEX_FORMAT` (R34). -/
def OutEvent.render : OutEvent → List Byte
  | .outByte b => [b]
  | .outString ws => ws.flatMap Config.putsCharMap
  | .outHex v => Config.hexFormat v

/-- The console's byte stream for the output so far (R34, D14, D17). -/
def consoleText (s : State) : List Byte := s.out.flatMap OutEvent.render

end Sys2Proof.Machine
end

