-- ==== Sys2Proof/Machine/Step.lean ====
section
/-! DEFINITION. One step (40_fetch_decode_dispatch.md R90, R96). -/

namespace Sys2Proof.Machine

/-- One step: while `RUN = 0` nothing changes (R96, D30; log 3); a step that has not completed is taken up again
(44_trap.md R182); otherwise fetch, advance the PC, record, decode, execute (R90). -/
def step (s : State) : Host.Outcome State Fault Refusal :=
  if s.run then
    match s.pending with
    | some p => .next (resume p s)
    | none => exec (decode (fetchWord s)) s.afterFetch
  else .next s

/-- The state with the given instruction word where the next step fetches. In a running state that is `mem[PC]`.
In a state that is not running the word is loaded at the origin and the machine started, as the loader and the
`start` request do (70_reset_and_hazards.md R222; log 7). -/
def State.withFetchWord (s : State) (nbits w : Nat) : State :=
  let s₁ := if s.run then s else { s.begin with halted := false }
  { s₁.writeMem s₁.pc (BitVec.ofNat 16 (w % 2 ^ nbits)) with pending := none }

end Sys2Proof.Machine
end

