-- ==== Sys2Proof/Machine/Transactions.lean ====
section
/-! DEFINITION. The external transactions of a step and their order (20_memory.md R42, R51; 15_interfaces.md R36).
With one agent and no side effect of a read they are no state: this is a function of the state a step starts in (log 15).
That it tells the truth about `exec` is stated in Certificates/Slice0. -/

namespace Sys2Proof.Machine

/-- A transaction on the memory port or the console port. -/
inductive Transaction where
  | memRead (a : Word)
  | memWrite (a v : Word)
  | consoleInByte (b : Byte)
  | consoleInHexLine (r : Option Word)
  | consoleOut (e : OutEvent)
  deriving DecidableEq, Repr

/-- The addresses PUTS reads, in order, up to and including the first zero word (R51, R55). -/
def scanReads : Nat → Memory → Word → List Word
  | 0, _, _ => []
  | n + 1, m, a => a :: (if m.read a = 0 then [] else scanReads n m (a + 1))

/-- GETC: the byte it consumes; nothing while it holds. -/
def getcTransactions (s : State) : List Transaction :=
  match s.byteAnswers with
  | [] => []
  | b :: _ => [.consoleInByte b]

/-- INU16: the line it consumes; nothing while it holds. -/
def inu16Transactions (s : State) : List Transaction :=
  match s.lineAnswers with
  | [] => []
  | r :: _ => [.consoleInHexLine r]

/-- PUTS: its reads, then its one event. Where no word is zero: one round of the endless reading. -/
def putsTransactions (s : State) : List Transaction :=
  (scanReads memWords s.mem (s.readReg .r0)).map .memRead ++
    match scanString memWords s.mem (s.readReg .r0) with
    | some ws => [.consoleOut (.outString ws)]
    | none => []

/-- TRAP: those of the routine its vector selects (44_trap.md R170). -/
def trapTransactions (vec : BitVec 8) (s : State) : List Transaction :=
  match vec.toNat with
  | 0x20 => getcTransactions s
  | 0x21 => [.consoleOut (.outByte ((s.readReg .r0).extractLsb' 0 8))]
  | 0x22 => putsTransactions s
  | 0x26 => inu16Transactions s
  | 0x27 => [.consoleOut (.outHex (s.readReg .r0))]
  | _ => []

/-- The transactions of an instruction after its fetch, in order (R42, R51); the state is the one after the fetch. -/
def transactions (i : Instr) (s : State) : List Transaction :=
  match i with
  | .br _ _ => []
  | .addReg _ _ _ => []
  | .addImm _ _ _ => []
  | .ld _ off9 => [.memRead (eaPc s off9)]
  | .st sr off9 => [.memWrite (eaPc s off9) (s.readReg sr)]
  | .jsr _ => []
  | .jsrr _ => []
  | .andReg _ _ _ => []
  | .andImm _ _ _ => []
  | .ldr _ base off6 => [.memRead (eaBase s base off6)]
  | .str sr base off6 => [.memWrite (eaBase s base off6) (s.readReg sr)]
  | .rti => []
  | .not _ _ => []
  | .ldi _ off9 => [.memRead (eaPc s off9), .memRead (eaInd s off9)]
  | .sti sr off9 => [.memRead (eaPc s off9), .memWrite (eaInd s off9) (s.readReg sr)]
  | .jmp _ => []
  | .res => []
  | .lea _ _ => []
  | .trap vec => trapTransactions vec s
  | .getc => getcTransactions s
  | .putc => [.consoleOut (.outByte ((s.readReg .r0).extractLsb' 0 8))]
  | .puts => putsTransactions s
  | .inTrap => []
  | .putsp => []
  | .halt => []
  | .inu16 => inu16Transactions s
  | .outu16 => [.consoleOut (.outHex (s.readReg .r0))]

/-- The transactions of a whole step (R51): the fetch read first. A step taken up again makes those of its routine. -/
def stepTransactions (s : State) : List Transaction :=
  if s.run then
    match s.pending with
    | some .inByte => getcTransactions s
    | some .inLine => inu16Transactions s
    | some .putsLoop => putsTransactions s
    | none => .memRead s.pc :: transactions (decode (fetchWord s)) s.afterFetch
  else []

/-- The memory after the writes of some transactions. -/
def replayWrites (m : Memory) (ts : List Transaction) : Memory :=
  match ts with
  | [] => m
  | .memWrite a v :: rest => replayWrites (m.write a v) rest
  | _ :: rest => replayWrites m rest

/-- The console events among some transactions. -/
def outEvents (ts : List Transaction) : List OutEvent :=
  ts.filterMap (fun t => match t with
    | .consoleOut e => some e
    | _ => none)

end Sys2Proof.Machine
end

