-- ==== Sys2Proof/Safety.lean ====
section
/-! DEFINITION. The terms claims are stated in: the invariant, the reachable states, the end of a run, what each
handler may write, and what "unchanged" means. -/

namespace Sys2Proof.Machine

/-- The values COND can hold (10_state.md R17). -/
abbrev condLegal (c : BitVec 3) : Prop := c = 0 ∨ c = condPos ∨ c = condZero ∨ c = condNeg

/-- Exactly one flag is set (10_state.md R17). -/
abbrev condOneHot (c : BitVec 3) : Prop := c = condPos ∨ c = condZero ∨ c = condNeg

/-- The invariant of the machine: memory is in canonical form, COND is legal (10_state.md R17), a halted machine does
not run (R223), and a step in progress belongs to a running machine (44_trap.md R182). -/
abbrev State.Inv (s : State) : Prop :=
  s.mem.wf ∧ condLegal s.cond ∧ (s.run = true → s.halted = false) ∧ (s.pending ≠ none → s.run = true)

/-- The states the machine can come to: reset, then steps of the core and accepted moves of the host
(15_interfaces.md R38). -/
inductive Reachable : State → Prop where
  | reset : Reachable State.reset
  | step {s t : State} : Reachable s → step s = .next t → Reachable t
  | host {s t : State} (m : HostMove) : Reachable s → hostMove m s = .next t → Reachable t

/-- A run has ended (70_reset_and_hazards.md R223). -/
abbrev State.ended (s : State) : Prop := s.run = false ∧ s.halted = true

/-- The register the seven flag-updating instructions write (41_alu_flags.md R112). -/
def flagDest : Instr → Option Reg
  | .br _ _ => none
  | .addReg dr _ _ => some dr
  | .addImm dr _ _ => some dr
  | .ld dr _ => some dr
  | .st _ _ => none
  | .jsr _ => none
  | .jsrr _ => none
  | .andReg dr _ _ => some dr
  | .andImm dr _ _ => some dr
  | .ldr dr _ _ => some dr
  | .str _ _ _ => none
  | .rti => none
  | .not dr _ => some dr
  | .ldi dr _ => some dr
  | .sti _ _ => none
  | .jmp _ => none
  | .res => none
  | .lea dr _ => some dr
  | .trap _ => none
  | .getc => none
  | .putc => none
  | .puts => none
  | .inTrap => none
  | .putsp => none
  | .halt => none
  | .inu16 => none
  | .outu16 => none

/-- The general registers the table of 40_fetch_decode_dispatch.md R94 lets an instruction write: `x[dr]` for the
flag-updating instructions, R7 for JSR and JSRR, R0 for GETC and INU16, none for the others. -/
def mayWriteRegs (i : Instr) : List Reg :=
  match i with
  | .jsr _ => [.r7]
  | .jsrr _ => [.r7]
  | .getc => [.r0]
  | .inu16 => [.r0]
  | .trap vec => if vec = 0x20 ∨ vec = 0x26 then [.r0] else []
  | i => (flagDest i).toList

/-- The vector of a TRAP, by its own row or the generic one (30_encoding.md R69). -/
def trapVector : Instr → Option (BitVec 8)
  | .trap vec => some vec
  | .getc => some 0x20
  | .putc => some 0x21
  | .puts => some 0x22
  | .inTrap => some 0x23
  | .putsp => some 0x24
  | .halt => some 0x25
  | .inu16 => some 0x26
  | .outu16 => some 0x27
  | _ => none

/-- The memory is as before, word by word. -/
abbrev sameMem (s t : State) : Prop := ∀ a : Word, t.readMem a = s.readMem a

/-- Every word of memory but one is as before. -/
abbrev sameMemBut (a : Word) (s t : State) : Prop := ∀ b : Word, b ≠ a → t.readMem b = s.readMem b

/-- Every general register but those listed is as before. -/
abbrev sameRegsBut (l : List Reg) (s t : State) : Prop := ∀ r : Reg, r ∉ l → t.readReg r = s.readReg r

/-- RUN, the halted mark and the step in progress are as before. -/
abbrev sameControl (s t : State) : Prop := t.run = s.run ∧ t.halted = s.halted ∧ t.pending = s.pending

/-- The console's answers and output are as before. -/
abbrev sameConsole (s t : State) : Prop :=
  t.byteAnswers = s.byteAnswers ∧ t.lineAnswers = s.lineAnswers ∧ t.out = s.out

/-- The console and what was sent to the observer are as before. -/
abbrev sameHost (s t : State) : Prop := sameConsole s t ∧ t.observer = s.observer

/-- Whether a transaction reads memory. -/
def Transaction.isRead : Transaction → Bool
  | .memRead _ => true
  | .memWrite _ _ => false
  | .consoleInByte _ => false
  | .consoleInHexLine _ => false
  | .consoleOut _ => false

/-- Whether a transaction writes memory. -/
def Transaction.isWrite : Transaction → Bool
  | .memRead _ => false
  | .memWrite _ _ => true
  | .consoleInByte _ => false
  | .consoleInHexLine _ => false
  | .consoleOut _ => false

/-- The log events an instruction raises in a state (60_exceptions.md R201). -/
def logged (i : Instr) (s : State) : List LogEvent :=
  match i with
  | .rti => [.unimplementedOpcode 0x8]
  | .res => [.unimplementedOpcode 0xD]
  | .inTrap => [.reservedTrap 0x23]
  | .putsp => [.reservedTrap 0x24]
  | .trap vec => [.reservedTrap vec]
  | .inu16 => if s.lineAnswers.head? = some none then [.hexParseFailure] else []
  | _ => []

/-- Equal but for what was sent to the observer (15_interfaces.md R35). -/
abbrev sameButObserver (s t : State) : Prop := { s with observer := [] } = { t with observer := [] }

end Sys2Proof.Machine
end

