-- ==== Sys2Proof/Certificates/Slice0/Obligations.lean ====
section
/-! DEFINITION. The statements for the provers. In the statements about instructions, `s` is the state after the
fetch, whose PC is the incremented one (40_fetch_decode_dispatch.md R92); `exec` is the effect, `step` adds the fetch
(`StepRunsDecodedInstruction`). Words are written bit field by bit field from 30_encoding.md R67, bit 15 on the left.
Opcode numbers other than 0x1, 0x8, 0xD, 0xF are the spec's decision D1 (log 8); the values of POS, ZERO, NEG are its
decision D3 (log 9). -/

open Sys2Proof Sys2Proof.Machine

/-! ## Encoding -/

/-- Decode and encode agree: decoding the word of a well-formed instruction gives it back (30_encoding.md R67, R74). -/
def Obligations.DecodeOfEncode : Prop :=
  ∀ i : Instr, i.wellFormed = true → decode (encode i) = i

/-- The decoder yields a well-formed instruction for every word (30_encoding.md R69, R74). -/
def Obligations.DecodedIsWellFormed : Prop :=
  ∀ w : Word, (decode w).wellFormed = true

/-- Two words decode alike exactly if they agree on the bits the form gives a meaning (R67, R68; that the other bits
are ignored is the spec's decision D6, log 12). -/
def Obligations.WordsDecodeAlikeIffUsedBitsAgree : Prop :=
  ∀ w w' : Word, decode w = decode w' ↔ w &&& usedBits (decode w) = w' &&& usedBits (decode w)

/-- The opcode map (30_encoding.md R66; twelve of its numbers are decision D1, the name RTI of 0x8 is D2). -/
def Obligations.OpcodeMapSelectsHandlers : Prop :=
  ∀ x : BitVec 12,
    (decode (0x0#4 ++ x : BitVec (4 + 12))).handler = .br ∧ (decode (0x1#4 ++ x : BitVec (4 + 12))).handler = .add ∧
    (decode (0x2#4 ++ x : BitVec (4 + 12))).handler = .ld ∧ (decode (0x3#4 ++ x : BitVec (4 + 12))).handler = .st ∧
    (decode (0x4#4 ++ x : BitVec (4 + 12))).handler = .jsr ∧ (decode (0x5#4 ++ x : BitVec (4 + 12))).handler = .and ∧
    (decode (0x6#4 ++ x : BitVec (4 + 12))).handler = .ldr ∧ (decode (0x7#4 ++ x : BitVec (4 + 12))).handler = .str ∧
    (decode (0x8#4 ++ x : BitVec (4 + 12))).handler = .rti ∧ (decode (0x9#4 ++ x : BitVec (4 + 12))).handler = .not ∧
    (decode (0xA#4 ++ x : BitVec (4 + 12))).handler = .ldi ∧ (decode (0xB#4 ++ x : BitVec (4 + 12))).handler = .sti ∧
    (decode (0xC#4 ++ x : BitVec (4 + 12))).handler = .jmp ∧ (decode (0xD#4 ++ x : BitVec (4 + 12))).handler = .res ∧
    (decode (0xE#4 ++ x : BitVec (4 + 12))).handler = .lea ∧ (decode (0xF#4 ++ x : BitVec (4 + 12))).handler = .trap

/-- TRAP sub-decoding (30_encoding.md R69): by the low 8 bits, whatever bits 11..8 are. -/
def Obligations.TrapVectorsSelectRoutines : Prop :=
  ∀ (x : BitVec 4) (v : BitVec 8), decode (0xF#4 ++ x ++ v : BitVec (4 + 4 + 8)) =
    if v = 0x20 then .getc else if v = 0x21 then .putc else if v = 0x22 then .puts else if v = 0x23 then .inTrap
    else if v = 0x24 then .putsp else if v = 0x25 then .halt else if v = 0x26 then .inu16 else if v = 0x27 then .outu16
    else .trap v

/-- A few words of 95_test_vectors.md decode to what it says of them. -/
def Obligations.SpecWordsDecode : Prop :=
  decode 0x1021 = .addImm .r0 .r0 1 ∧ decode 0xF025 = .halt ∧ decode 0x1459 = .addReg .r2 .r1 .r1 ∧
  decode 0x527F = .andImm .r1 .r1 0x1F ∧ decode 0x96BF = .not .r3 .r2 ∧ decode 0xA809 = .ldi .r4 9 ∧
  decode 0x7641 = .str .r3 .r1 1 ∧ decode 0x03FD = .br 0b001 0x1FD ∧ decode 0x4C00 = .jsr 0x400 ∧
  decode 0x46FF = .jsrr .r3 ∧ decode 0xCEBF = .jmp .r2 ∧ decode 0xF028 = .trap 0x28

/-- Sign extension (30_encoding.md R63), in both of the rule's forms, and as the reading of a signed number. -/
def Obligations.SignExtensionOfFields : Prop :=
  ∀ (n : Nat) (v : BitVec n), 1 ≤ n → n ≤ 15 →
    sext v = (if v.getLsbD (n - 1) then v.setWidth 16 ||| ((0xFFFF : Word) <<< n) else v.setWidth 16) ∧
    (sext v).toNat = (if 2 ^ (n - 1) ≤ v.toNat then (v.toNat + 2 ^ 16 - 2 ^ n) % 2 ^ 16 else v.toNat) ∧
    (sext v).toInt = v.toInt

/-! ## Flags, memory, reset -/

/-- The flag function over its three ranges (41_alu_flags.md R111); the bit values are decision D3. -/
def Obligations.FlagFunctionByRange : Prop :=
  ∀ v : Word, (v.toNat = 0 → flagsOf v = 0b010) ∧ (1 ≤ v.toNat → v.toNat ≤ 0x7FFF → flagsOf v = 0b001) ∧
    (0x8000 ≤ v.toNat → flagsOf v = 0b100)

/-- The memory port (20_memory.md R53): a write sets one word, changes nothing else, and a read tells it. -/
def Obligations.MemoryPortReadsAndWrites : Prop :=
  ∀ (s : State) (a v : Word), (∀ b : Word, (s.writeMem a v).readMem b = if b = a then v else s.readMem b) ∧
    { s.writeMem a v with mem := s.mem } = s

/-- Two memories in canonical form that read alike are the same data (the form is the model's, log 1). -/
def Obligations.CanonicalMemoryIsDetermined : Prop :=
  ∀ m m' : Memory, m.wf → m'.wf → (∀ a : Word, m.read a = m'.read a) → m = m'

/-- What reset leaves (10_state.md R18): in `State.reset`, and after a reset request while `RUN = 0`, where the console
lists are the host's and stay; while `RUN = 1` the request is refused. That the two answer queues of `State.reset` are
empty is the model's choice (log 5); the refusal is deduced from 10_state.md R22 (log 17). -/
def Obligations.ResetValues : Prop :=
  (State.reset.byteAnswers = [] ∧ State.reset.lineAnswers = [] ∧ State.reset.out = [] ∧ State.reset.observer = []) ∧
  ∀ s : State,
    (s.run = true → hostMove .reset s = .refused .resetWhileRunning) ∧
    (s.run = false → ∃ t, hostMove .reset s = .next t ∧ sameHost s t ∧
      ∀ u, (u = t ∨ u = State.reset) → (∀ r : Reg, u.readReg r = 0x0000) ∧ u.pc = 0x0000 ∧ u.cond = 0b000 ∧
        u.run = false ∧ (∀ a : Word, u.readMem a = 0x0000) ∧
        ∃ v, hostMove .start u = .next v ∧ v.pc = 0x3000)

/-- The start request (70_reset_and_hazards.md R221); that it is refused while running and after a HALT is decision
D20 (log 4). -/
def Obligations.StartRequest : Prop :=
  ∀ s : State,
    (s.run = false → s.halted = false → ∃ t, hostMove .start s = .next t ∧ t.pc = 0x3000 ∧ t.run = true ∧
      { t with pc := s.pc, run := s.run } = s) ∧
    (s.run = true ∨ s.halted = true → hostMove .start s = .refused .startNotAccepted)

/-- The loader (20_memory.md R52; the bound on the length is decision D12, log 7; that a load is accepted
also after a HALT is the model's choice, log 18). -/
def Obligations.LoaderWritesImageAtOrigin : Prop :=
  ∀ (image : List Word) (s : State), s.run = false → image.length ≤ 0xD000 →
    ∃ t, hostMove (.load image) s = .next t ∧
      (∀ i : Nat, i < image.length → image[i]? = some (t.readMem (0x3000 + BitVec.ofNat 16 i))) ∧
      (∀ a : Word, a.toNat < 0x3000 ∨ 0x3000 + image.length ≤ a.toNat → t.readMem a = s.readMem a) ∧
      { t with mem := s.mem } = s

/-! ## The step -/

/-- A step of a running machine with no step in progress fetches the word at PC, advances the PC, sends the trace
record, and is `exec` of the decoded instruction (40_fetch_decode_dispatch.md R90 to R95). -/
def Obligations.StepRunsDecodedInstruction : Prop :=
  ∀ s : State, s.run = true → s.pending = none →
    step s = exec (decode (s.readMem s.pc))
      { s with
        pc := s.pc + 1
        observer := s.observer ++ [.trace
          { addr := s.pc, cond := s.cond, regs := s.regs, ir := s.readMem s.pc,
            name := (decode (s.readMem s.pc)).handler }] }

/-- While `RUN = 0` a step changes nothing (R96; decision D30; that it answers a next state is the model's, log 3). -/
def Obligations.IdleMachineChangesNothing : Prop :=
  ∀ s : State, s.run = false → step s = .next s

/-- The machine has no fault and refuses no instruction (R99; 60_exceptions.md R200). That a held GETC or INU16, a PUTS
over a memory without a zero word (which R173 says never completes) and a step while `RUN = 0` answer a next state is the
model's form (log 2, log 6, log 3). -/
def Obligations.EveryStepAndInstructionAnswersNext : Prop :=
  (∀ s : State, ∃ t, step s = .next t) ∧ ∀ (i : Instr) (s : State), ∃ t, exec i s = .next t

/-! ## ADD, AND, NOT -/

/-- ADD, register form (41_alu_flags.md R113); that bits 4..3 are ignored is decision D6 (30_encoding.md R68, log 12). -/
def Obligations.AddRegisterForm : Prop :=
  ∀ (dr sr1 sr2 : Reg) (x : BitVec 2) (s : State),
    decode (0b0001#4 ++ dr.toBits ++ sr1.toBits ++ 0#1 ++ x ++ sr2.toBits : BitVec (4 + 3 + 3 + 1 + 2 + 3)) =
      .addReg dr sr1 sr2 ∧
    ∃ t, exec (.addReg dr sr1 sr2) s = .next t ∧ t.readReg dr = s.readReg sr1 + s.readReg sr2 ∧
      (t.readReg dr).toNat = ((s.readReg sr1).toNat + (s.readReg sr2).toNat) % 2 ^ 16 ∧
      t.cond = flagsOf (t.readReg dr) ∧ sameRegsBut [dr] s t ∧ t.pc = s.pc ∧ sameMem s t ∧ sameControl s t ∧ sameHost s t

/-- ADD, immediate form (R114). -/
def Obligations.AddImmediateForm : Prop :=
  ∀ (dr sr1 : Reg) (imm5 : BitVec 5) (s : State),
    decode (0b0001#4 ++ dr.toBits ++ sr1.toBits ++ 1#1 ++ imm5 : BitVec (4 + 3 + 3 + 1 + 5)) = .addImm dr sr1 imm5 ∧
    ∃ t, exec (.addImm dr sr1 imm5) s = .next t ∧ t.readReg dr = s.readReg sr1 + imm5.signExtend 16 ∧
      t.cond = flagsOf (t.readReg dr) ∧ sameRegsBut [dr] s t ∧ t.pc = s.pc ∧ sameMem s t ∧ sameControl s t ∧ sameHost s t

/-- AND, register form (R115; opcode number D1, log 8; ignored bits 4..3 D6, log 12). -/
def Obligations.AndRegisterForm : Prop :=
  ∀ (dr sr1 sr2 : Reg) (x : BitVec 2) (s : State),
    decode (0b0101#4 ++ dr.toBits ++ sr1.toBits ++ 0#1 ++ x ++ sr2.toBits : BitVec (4 + 3 + 3 + 1 + 2 + 3)) =
      .andReg dr sr1 sr2 ∧
    ∃ t, exec (.andReg dr sr1 sr2) s = .next t ∧ t.readReg dr = s.readReg sr1 &&& s.readReg sr2 ∧
      t.cond = flagsOf (t.readReg dr) ∧ sameRegsBut [dr] s t ∧ t.pc = s.pc ∧ sameMem s t ∧ sameControl s t ∧ sameHost s t

/-- AND, immediate form (R116; opcode number D1). -/
def Obligations.AndImmediateForm : Prop :=
  ∀ (dr sr1 : Reg) (imm5 : BitVec 5) (s : State),
    decode (0b0101#4 ++ dr.toBits ++ sr1.toBits ++ 1#1 ++ imm5 : BitVec (4 + 3 + 3 + 1 + 5)) = .andImm dr sr1 imm5 ∧
    ∃ t, exec (.andImm dr sr1 imm5) s = .next t ∧ t.readReg dr = s.readReg sr1 &&& imm5.signExtend 16 ∧
      t.cond = flagsOf (t.readReg dr) ∧ sameRegsBut [dr] s t ∧ t.pc = s.pc ∧ sameMem s t ∧ sameControl s t ∧ sameHost s t

/-- NOT (R117; opcode number D1, log 8; ignored bits 5..0 D6, log 12). -/
def Obligations.NotComplementsRegister : Prop :=
  ∀ (dr sr1 : Reg) (x : BitVec 6) (s : State),
    decode (0b1001#4 ++ dr.toBits ++ sr1.toBits ++ x : BitVec (4 + 3 + 3 + 6)) = .not dr sr1 ∧
    ∃ t, exec (.not dr sr1) s = .next t ∧ t.readReg dr = ~~~(s.readReg sr1) ∧
      (t.readReg dr).toNat = 0xFFFF - (s.readReg sr1).toNat ∧
      t.cond = flagsOf (t.readReg dr) ∧ sameRegsBut [dr] s t ∧ t.pc = s.pc ∧ sameMem s t ∧ sameControl s t ∧ sameHost s t

/-! ## Loads and stores -/

/-- LD (42_load_store.md R132, R130; opcode number D1). -/
def Obligations.LdLoadsPcRelative : Prop :=
  ∀ (dr : Reg) (off9 : BitVec 9) (s : State),
    decode (0b0010#4 ++ dr.toBits ++ off9 : BitVec (4 + 3 + 9)) = .ld dr off9 ∧
    ∃ t, exec (.ld dr off9) s = .next t ∧ t.readReg dr = s.readMem (s.pc + off9.signExtend 16) ∧
      t.cond = flagsOf (t.readReg dr) ∧ sameRegsBut [dr] s t ∧ t.pc = s.pc ∧ sameMem s t ∧ sameControl s t ∧ sameHost s t

/-- LDI (R133, R139; opcode number D1): the flags come from the second word read. -/
def Obligations.LdiLoadsThroughPointer : Prop :=
  ∀ (dr : Reg) (off9 : BitVec 9) (s : State),
    decode (0b1010#4 ++ dr.toBits ++ off9 : BitVec (4 + 3 + 9)) = .ldi dr off9 ∧
    ∃ t, exec (.ldi dr off9) s = .next t ∧ t.readReg dr = s.readMem (s.readMem (s.pc + off9.signExtend 16)) ∧
      t.cond = flagsOf (t.readReg dr) ∧ sameRegsBut [dr] s t ∧ t.pc = s.pc ∧ sameMem s t ∧ sameControl s t ∧ sameHost s t

/-- LDR (R134, R131; opcode number D1). -/
def Obligations.LdrLoadsBasePlusOffset : Prop :=
  ∀ (dr base : Reg) (off6 : BitVec 6) (s : State),
    decode (0b0110#4 ++ dr.toBits ++ base.toBits ++ off6 : BitVec (4 + 3 + 3 + 6)) = .ldr dr base off6 ∧
    ∃ t, exec (.ldr dr base off6) s = .next t ∧ t.readReg dr = s.readMem (s.readReg base + off6.signExtend 16) ∧
      t.cond = flagsOf (t.readReg dr) ∧ sameRegsBut [dr] s t ∧ t.pc = s.pc ∧ sameMem s t ∧ sameControl s t ∧ sameHost s t

/-- LEA (R135; opcode number D1): no memory access, and the flags are written. -/
def Obligations.LeaGivesAddressAndFlags : Prop :=
  ∀ (dr : Reg) (off9 : BitVec 9) (s : State),
    decode (0b1110#4 ++ dr.toBits ++ off9 : BitVec (4 + 3 + 9)) = .lea dr off9 ∧ transactions (.lea dr off9) s = [] ∧
    ∃ t, exec (.lea dr off9) s = .next t ∧ t.readReg dr = s.pc + off9.signExtend 16 ∧
      t.cond = flagsOf (t.readReg dr) ∧ sameRegsBut [dr] s t ∧ t.pc = s.pc ∧ sameMem s t ∧ sameControl s t ∧ sameHost s t

/-- ST (R136; opcode number D1). -/
def Obligations.StStoresPcRelative : Prop :=
  ∀ (sr : Reg) (off9 : BitVec 9) (s : State),
    decode (0b0011#4 ++ sr.toBits ++ off9 : BitVec (4 + 3 + 9)) = .st sr off9 ∧
    ∃ t, exec (.st sr off9) s = .next t ∧ t.readMem (s.pc + off9.signExtend 16) = s.readReg sr ∧
      sameMemBut (s.pc + off9.signExtend 16) s t ∧
      sameRegsBut [] s t ∧ t.cond = s.cond ∧ t.pc = s.pc ∧ sameControl s t ∧ sameHost s t

/-- STI (R137; opcode number D1). -/
def Obligations.StiStoresThroughPointer : Prop :=
  ∀ (sr : Reg) (off9 : BitVec 9) (s : State),
    decode (0b1011#4 ++ sr.toBits ++ off9 : BitVec (4 + 3 + 9)) = .sti sr off9 ∧
    ∃ t, exec (.sti sr off9) s = .next t ∧ t.readMem (s.readMem (s.pc + off9.signExtend 16)) = s.readReg sr ∧
      sameMemBut (s.readMem (s.pc + off9.signExtend 16)) s t ∧
      sameRegsBut [] s t ∧ t.cond = s.cond ∧ t.pc = s.pc ∧ sameControl s t ∧ sameHost s t

/-- STR (R138; opcode number D1). -/
def Obligations.StrStoresBasePlusOffset : Prop :=
  ∀ (sr base : Reg) (off6 : BitVec 6) (s : State),
    decode (0b0111#4 ++ sr.toBits ++ base.toBits ++ off6 : BitVec (4 + 3 + 3 + 6)) = .str sr base off6 ∧
    ∃ t, exec (.str sr base off6) s = .next t ∧ t.readMem (s.readReg base + off6.signExtend 16) = s.readReg sr ∧
      sameMemBut (s.readReg base + off6.signExtend 16) s t ∧
      sameRegsBut [] s t ∧ t.cond = s.cond ∧ t.pc = s.pc ∧ sameControl s t ∧ sameHost s t

/-! ## Control transfer -/

/-- BR (43_control.md R150; opcode number D1, pairing of bits and flags D3): taken exactly if a condition bit meets
COND; for the legal values of COND this is the rule's truth table, never taken with COND = 0b000. -/
def Obligations.BrBranchesOnCondition : Prop :=
  ∀ (nzp : BitVec 3) (off9 : BitVec 9) (s : State),
    decode (0b0000#4 ++ nzp ++ off9 : BitVec (4 + 3 + 9)) = .br nzp off9 ∧
    ∃ t, exec (.br nzp off9) s = .next t ∧
      t.pc = (if s.cond &&& nzp ≠ 0 then s.pc + off9.signExtend 16 else s.pc) ∧
      (condLegal s.cond → (s.cond &&& nzp ≠ 0 ↔
        (nzp.getLsbD 2 = true ∧ s.cond = 0b100) ∨ (nzp.getLsbD 1 = true ∧ s.cond = 0b010) ∨
        (nzp.getLsbD 0 = true ∧ s.cond = 0b001))) ∧
      sameRegsBut [] s t ∧ t.cond = s.cond ∧ sameMem s t ∧ sameControl s t ∧ sameHost s t

/-- JMP (R151; opcode number D1, log 8; ignored bits 11..9 and 5..0 D6, log 12). -/
def Obligations.JmpGoesToRegister : Prop :=
  ∀ (base : Reg) (x : BitVec 3) (y : BitVec 6) (s : State),
    decode (0b1100#4 ++ x ++ base.toBits ++ y : BitVec (4 + 3 + 3 + 6)) = .jmp base ∧
    ∃ t, exec (.jmp base) s = .next t ∧ t.pc = s.readReg base ∧
      sameRegsBut [] s t ∧ t.cond = s.cond ∧ sameMem s t ∧ sameControl s t ∧ sameHost s t

/-- JSR, long form (R152; opcode number D1; the target without the PC is decision D4, and `jsrTarget true` is the
other reading of 90_conflicts.md C1). -/
def Obligations.JsrLongFormGoesToOffset : Prop :=
  ∀ (off11 : BitVec 11) (s : State),
    decode (0b0100#4 ++ 1#1 ++ off11 : BitVec (4 + 1 + 11)) = .jsr off11 ∧
    (∃ t, exec (.jsr off11) s = .next t ∧ t.readReg .r7 = s.pc ∧ t.pc = off11.signExtend 16 ∧
      (t.pc.toNat ≤ 0x03FF ∨ 0xFC00 ≤ t.pc.toNat) ∧
      sameRegsBut [.r7] s t ∧ t.cond = s.cond ∧ sameMem s t ∧ sameControl s t ∧ sameHost s t) ∧
    jsrTarget true s.pc off11 = s.pc + off11.signExtend 16

/-- JSRR (R153; opcode number D1, log 8; ignored bits 10..9 and 5..0 D6, log 12; that R7 is written before the base is
read is decision D5, log 11, so JSRR R7 falls through). -/
def Obligations.JsrrLinksThenGoesToRegister : Prop :=
  ∀ (base : Reg) (x : BitVec 2) (y : BitVec 6) (s : State),
    decode (0b0100#4 ++ 0#1 ++ x ++ base.toBits ++ y : BitVec (4 + 1 + 2 + 3 + 6)) = .jsrr base ∧
    ∃ t, exec (.jsrr base) s = .next t ∧ t.readReg .r7 = s.pc ∧
      (base ≠ .r7 → t.pc = s.readReg base) ∧ (base = .r7 → t.pc = s.pc) ∧
      sameRegsBut [.r7] s t ∧ t.cond = s.cond ∧ sameMem s t ∧ sameControl s t ∧ sameHost s t

/-- RTI and RES (R154, R155): logged no-ops. That the low 12 bits are ignored is decision D6 (30_encoding.md R68,
log 12); which of 0x8 and 0xD is RTI is decision D2 (log 8). -/
def Obligations.RtiAndResOnlyLog : Prop :=
  ∀ (x : BitVec 12) (s : State),
    decode (0b1000#4 ++ x : BitVec (4 + 12)) = .rti ∧ decode (0b1101#4 ++ x : BitVec (4 + 12)) = .res ∧
    exec .rti s = .next { s with observer := s.observer ++ [.log (.unimplementedOpcode 0x8)] } ∧
    exec .res s = .next { s with observer := s.observer ++ [.log (.unimplementedOpcode 0xD)] }

/-! ## TRAP -/

/-- GETC (44_trap.md R171): with a byte of the host, that byte zero-extended into R0 and nothing else but the byte
consumed; without one, a hold (the form of the hold is the model's, log 2). -/
def Obligations.GetcReadsOneByte : Prop :=
  ∀ (x : BitVec 4) (s : State),
    decode (0b1111#4 ++ x ++ 0x20#8 : BitVec (4 + 4 + 8)) = .getc ∧
    (∀ (b : Byte) (rest : List Byte), s.byteAnswers = b :: rest →
      ∃ t, exec .getc s = .next t ∧ t.readReg .r0 = (0x00#8 ++ b : BitVec (8 + 8)) ∧ t.byteAnswers = rest ∧
        t.pending = none ∧ sameRegsBut [.r0] s t ∧ t.cond = s.cond ∧ t.pc = s.pc ∧ sameMem s t ∧ t.run = s.run ∧
        t.halted = s.halted ∧ t.lineAnswers = s.lineAnswers ∧ t.out = s.out ∧ t.observer = s.observer) ∧
    (s.byteAnswers = [] → exec .getc s = .next { s with pending := some .inByte })

/-- PUTC (R172). -/
def Obligations.PutcWritesLowByte : Prop :=
  ∀ (x : BitVec 4) (s : State),
    decode (0b1111#4 ++ x ++ 0x21#8 : BitVec (4 + 4 + 8)) = .putc ∧
    ∃ (t : State) (b : Byte), exec .putc s = .next t ∧ b.toNat = (s.readReg .r0).toNat % 256 ∧
      t.out = s.out ++ [.outByte b] ∧ { t with out := s.out } = s

/-- PUTS (R173): the words from `mem[x[0]]` up to the first zero word, as one event; with no zero word the step does
not complete (decision D15; the form of the hang is the model's, log 6). -/
def Obligations.PutsWritesStringUpToZero : Prop :=
  ∀ (x : BitVec 4) (s : State),
    decode (0b1111#4 ++ x ++ 0x22#8 : BitVec (4 + 4 + 8)) = .puts ∧
    (∀ n : Nat, n < 65536 → (∀ k : Nat, k < n → s.readMem (s.readReg .r0 + BitVec.ofNat 16 k) ≠ 0) →
      s.readMem (s.readReg .r0 + BitVec.ofNat 16 n) = 0 →
      ∃ t, exec .puts s = .next t ∧
        t.out = s.out ++
          [.outString ((List.range n).map fun k => s.readMem (s.readReg .r0 + BitVec.ofNat 16 k))] ∧
        t.pending = none ∧ { t with out := s.out, pending := s.pending } = s) ∧
    ((∀ a : Word, s.readMem a ≠ 0) → exec .puts s = .next { s with pending := some .putsLoop })

/-- PUTS over a memory without a zero word never completes (R173, decision D15; log 6): every later step leaves the
machine as it is. -/
def Obligations.PutsWithoutZeroNeverCompletes : Prop :=
  ∀ s : State, s.run = true → s.pending = some .putsLoop → (∀ a : Word, s.readMem a ≠ 0) → step s = .next s

/-- The reserved vectors (R174, R175, R179): logged no-ops. -/
def Obligations.ReservedTrapsOnlyLog : Prop :=
  ∀ (x : BitVec 4) (v : BitVec 8) (s : State),
    decode (0b1111#4 ++ x ++ 0x23#8 : BitVec (4 + 4 + 8)) = .inTrap ∧
    decode (0b1111#4 ++ x ++ 0x24#8 : BitVec (4 + 4 + 8)) = .putsp ∧
    exec .inTrap s = .next { s with observer := s.observer ++ [.log (.reservedTrap 0x23)] } ∧
    exec .putsp s = .next { s with observer := s.observer ++ [.log (.reservedTrap 0x24)] } ∧
    (v.toNat ≤ 0x1F ∨ 0x28 ≤ v.toNat →
      decode (0b1111#4 ++ x ++ v : BitVec (4 + 4 + 8)) = .trap v ∧
      exec (.trap v) s = .next { s with observer := s.observer ++ [.log (.reservedTrap v)] })

/-- HALT (R176): RUN is cleared and nothing else of the machine changes (`halted` is the model's mark of it, log 4);
the step's PC increment stands, and no further step changes anything. -/
def Obligations.HaltStopsTheMachine : Prop :=
  ∀ s : State,
    (∃ t, exec .halt s = .next t ∧ t.run = false ∧ t.halted = true ∧ sameRegsBut [] s t ∧ t.cond = s.cond ∧
      t.pc = s.pc ∧ sameMem s t ∧ t.pending = s.pending ∧ sameHost s t) ∧
    (∀ x : BitVec 4, s.run = true → s.pending = none →
      s.readMem s.pc = (0b1111#4 ++ x ++ 0x25#8 : BitVec (4 + 4 + 8)) →
      ∃ t, step s = .next t ∧ t.run = false ∧ t.pc = s.pc + 1 ∧ sameRegsBut [] s t ∧ t.cond = s.cond ∧
        sameMem s t ∧ sameConsole s t ∧ step t = .next t)

/-- INU16 (R177): the parsed value into R0, or R0 unchanged and a log event; without a line, a hold (log 2). -/
def Obligations.Inu16ReadsOneLine : Prop :=
  ∀ (x : BitVec 4) (s : State),
    decode (0b1111#4 ++ x ++ 0x26#8 : BitVec (4 + 4 + 8)) = .inu16 ∧
    (∀ (v : Word) (rest : List (Option Word)), s.lineAnswers = some v :: rest →
      ∃ t, exec .inu16 s = .next t ∧ t.readReg .r0 = v ∧ sameRegsBut [.r0] s t ∧ t.lineAnswers = rest ∧
        t.pending = none ∧ t.cond = s.cond ∧ t.pc = s.pc ∧ sameMem s t ∧ t.run = s.run ∧ t.halted = s.halted ∧
        t.byteAnswers = s.byteAnswers ∧ t.out = s.out ∧ t.observer = s.observer) ∧
    (∀ rest : List (Option Word), s.lineAnswers = none :: rest →
      ∃ t, exec .inu16 s = .next t ∧ sameRegsBut [] s t ∧ t.lineAnswers = rest ∧
        t.pending = none ∧ t.cond = s.cond ∧ t.pc = s.pc ∧ sameMem s t ∧ t.run = s.run ∧ t.halted = s.halted ∧
        t.byteAnswers = s.byteAnswers ∧ t.out = s.out ∧ t.observer = s.observer ++ [.log .hexParseFailure]) ∧
    (s.lineAnswers = [] → exec .inu16 s = .next { s with pending := some .inLine })

/-- OUTU16 (R178). -/
def Obligations.Outu16WritesHex : Prop :=
  ∀ (x : BitVec 4) (s : State),
    decode (0b1111#4 ++ x ++ 0x27#8 : BitVec (4 + 4 + 8)) = .outu16 ∧
    exec .outu16 s = .next { s with out := s.out ++ [.outHex (s.readReg .r0)] }

/-- A held input trap (R182; the form of the hold is the model's, log 2): without the host's answer every step leaves
the machine as it is; after the answer the next step completes the routine, with no fetch and the PC as it was. -/
def Obligations.HeldInputCompletesOnAnswer : Prop :=
  ∀ s : State, s.run = true →
    (s.pending = some .inByte → s.byteAnswers = [] → step s = .next s ∧
      ∀ b : Byte, ∃ u t, hostMove (.answerByte b) s = .next u ∧ step u = .next t ∧
        (t.readReg .r0).toNat = b.toNat ∧ sameRegsBut [.r0] s t ∧ t.pc = s.pc ∧ t.cond = s.cond ∧ sameMem s t ∧
        t.run = true ∧ t.pending = none ∧ sameHost s t) ∧
    (s.pending = some .inLine → s.lineAnswers = [] → step s = .next s ∧
      ∀ r : Option Word, ∃ u t, hostMove (.answerLine r) s = .next u ∧ step u = .next t ∧
        t.readReg .r0 = r.getD (s.readReg .r0) ∧ sameRegsBut [.r0] s t ∧ t.pc = s.pc ∧ t.cond = s.cond ∧
        sameMem s t ∧ t.run = true ∧ t.pending = none ∧ sameConsole s t)

/-! ## Rules of the whole machine -/

/-- What TRAP does not do (R180), whatever the vector; and, in the model's form of a step not yet completed (`pending`:
log 2 for the holds, log 6 for PUTS), also when a routine is taken up again. -/
def Obligations.TrapWritesOnlyR0AndRun : Prop :=
  (∀ (i : Instr) (vec : BitVec 8) (s t : State), trapVector i = some vec → exec i s = .next t →
    sameRegsBut [.r0] s t ∧ t.cond = s.cond ∧ sameMem s t ∧ t.pc = s.pc ∧
    (vec ≠ 0x20 → vec ≠ 0x26 → t.readReg .r0 = s.readReg .r0) ∧ (vec ≠ 0x25 → t.run = s.run)) ∧
  ∀ (p : Pending) (s t : State), s.run = true → s.pending = some p → step s = .next t →
    sameRegsBut [.r0] s t ∧ t.cond = s.cond ∧ sameMem s t ∧ t.pc = s.pc ∧ t.run = s.run ∧
    (p = .putsLoop → t.readReg .r0 = s.readReg .r0)

/-- Which state each handler may write (40_fetch_decode_dispatch.md R94). -/
def Obligations.HandlersWriteOnlyTheirState : Prop :=
  ∀ (i : Instr) (s t : State), i.wellFormed = true → exec i s = .next t →
    sameRegsBut (mayWriteRegs i) s t ∧
    (flagDest i = none → t.cond = s.cond) ∧
    (i.handler ≠ .st → i.handler ≠ .sti → i.handler ≠ .str → sameMem s t) ∧
    ((transactions i s).countP Transaction.isWrite ≤ 1 ∧
      ∀ a : Word, (∀ v : Word, Transaction.memWrite a v ∉ transactions i s) → t.readMem a = s.readMem a) ∧
    (i.handler ≠ .br → i.handler ≠ .jmp → i.handler ≠ .jsr → t.pc = s.pc) ∧
    (i ≠ .halt → t.run = s.run) ∧
    (i.handler ≠ .trap → sameConsole s t ∧ (i.handler ≠ .rti → i.handler ≠ .res → t.observer = s.observer))

/-- The flags are set from the value written by exactly the seven flag-updating instructions (41_alu_flags.md R112). -/
def Obligations.FlagsFollowTheRegisterWritten : Prop :=
  ∀ (i : Instr) (s t : State), exec i s = .next t →
    (∀ dr : Reg, flagDest i = some dr → t.cond = flagsOf (t.readReg dr)) ∧ (flagDest i = none → t.cond = s.cond) ∧
    ((flagDest i).isSome = true ↔ i.handler ∈ [.add, .and, .ld, .ldi, .ldr, .lea, .not])

/-- The transactions of an instruction tell what it does to memory and to the console output (20_memory.md R51). -/
def Obligations.TransactionsTellMemoryAndOutput : Prop :=
  ∀ (i : Instr) (s t : State), exec i s = .next t →
    t.mem = replayWrites s.mem (transactions i s) ∧ t.out = s.out ++ outEvents (transactions i s)

/-- An instruction depends on no word of memory but those its transactions read (20_memory.md R42, R51): over another
memory that agrees on them it does the same. -/
def Obligations.InstructionsReadOnlyTheirTransactions : Prop :=
  ∀ (i : Instr) (s t : State) (m : Memory), exec i s = .next t →
    (∀ a : Word, Transaction.memRead a ∈ transactions i s → m.read a = s.readMem a) →
    exec i { s with mem := m } = .next { t with mem := replayWrites m (transactions i s) }

/-- How many words each instruction reads and writes besides its fetch (20_memory.md R42). -/
def Obligations.TransactionCounts : Prop :=
  ∀ s : State,
    (∀ i : Instr, i.wellFormed = true →
      (transactions i s).countP Transaction.isWrite = (if i.handler ∈ [.st, .sti, .str] then 1 else 0)) ∧
    (∀ i : Instr, i.wellFormed = true → i ≠ .puts →
      (transactions i s).countP Transaction.isRead =
        (if i.handler = .ldi then 2 else if i.handler ∈ [.ld, .ldr, .sti] then 1 else 0)) ∧
    (∀ ws : List Word, Transaction.consoleOut (.outString ws) ∈ transactions .puts s →
      (transactions .puts s).countP Transaction.isRead = ws.length + 1)

/-- Only TRAP HALT ends the run (40_fetch_decode_dispatch.md R97); a step taken up again (the model's `pending`, log 2,
log 6) does not. -/
def Obligations.OnlyHaltClearsRun : Prop :=
  ∀ s t : State, step s = .next t → s.run = true →
    (t.run = false ↔ s.pending = none ∧ decode (s.readMem s.pc) = .halt)

/-- Reset gives the created state and is the only way back from the halted state (70_reset_and_hazards.md R220). That a
start after a HALT is refused is the spec's decision D20, and the mark `halted` is the model's (log 4); that a reset
request is refused while `RUN = 1` is deduced from 10_state.md R22 (log 17). -/
def Obligations.ResetIsTheOnlyWayBack : Prop :=
  ∀ s : State,
    (s.run = false → ∃ t, hostMove .reset s = .next t ∧ (∀ r : Reg, t.readReg r = 0x0000) ∧ t.pc = 0x0000 ∧
      t.cond = 0b000 ∧ t.run = false ∧ (∀ a : Word, t.readMem a = 0x0000) ∧ ¬ t.ended) ∧
    (s.run = true → hostMove .reset s = .refused .resetWhileRunning) ∧
    (s.ended → (∀ t : State, step s = .next t → t.ended) ∧
      ∀ (mv : HostMove) (t : State), mv ≠ .reset → hostMove mv s = .next t → t.ended)

/-- A store to the address of the next instruction changes the instruction executed next (20_memory.md R50). -/
def Obligations.StoreIsSeenByNextFetch : Prop :=
  ∀ (s t : State) (v : Word), s.run = true → s.pending = none → step s = .next t →
    Transaction.memWrite (s.pc + 1) v ∈ stepTransactions s →
    t.pc = s.pc + 1 ∧ step t = exec (decode v) t.afterFetch

/-- COND (10_state.md R17): legal values stay legal, one-hot stays one-hot, and a step that executes a flag-updating
instruction makes it one-hot. -/
def Obligations.CondIsOneHotAfterFlagUpdate : Prop :=
  ∀ s t : State, step s = .next t →
    (condLegal s.cond → condLegal t.cond) ∧ (condOneHot s.cond → condOneHot t.cond) ∧
    (s.run = true → s.pending = none → (flagDest (decode (s.readMem s.pc))).isSome = true → condOneHot t.cond)

/-- What a step sends to the observer (40_fetch_decode_dispatch.md R95; 60_exceptions.md R201, R203): one trace record
of what the instruction starts with, then the log events of the instruction, at most one; a step taken up again
(the model's form, log 2, log 6) sends no trace record. -/
def Obligations.ObserverRecordsOfAStep : Prop :=
  ∀ s t : State, step s = .next t → s.run = true →
    (s.pending = none →
      t.observer = s.observer ++
        [.trace { addr := s.pc, cond := s.cond, regs := s.regs, ir := s.readMem s.pc,
                  name := (decode (s.readMem s.pc)).handler }] ++
        (logged (decode (s.readMem s.pc)) s).map .log ∧
      (logged (decode (s.readMem s.pc)) s).length ≤ 1) ∧
    (s.pending ≠ none → t.observer = s.observer ∨ t.observer = s.observer ++ [.log .hexParseFailure])

/-- The observer cannot change the machine, nothing reads what was sent to it, and its list only grows
(15_interfaces.md R35). -/
def Obligations.ObserverIsNeverRead : Prop :=
  ∀ s₁ s₂ : State, sameButObserver s₁ s₂ →
    ∃ t₁ t₂ rs₁ rs₂, step s₁ = .next t₁ ∧ step s₂ = .next t₂ ∧ sameButObserver t₁ t₂ ∧
      t₁.observer = s₁.observer ++ rs₁ ∧ t₂.observer = s₂.observer ++ rs₂ ∧ rs₁ = rs₂

/-- The console's answers are consumed by GETC and INU16 only, one at a time and in order, and the output only grows
(15_interfaces.md R33, R34). -/
def Obligations.ConsoleQueuesMoveInOrder : Prop :=
  ∀ s t : State, step s = .next t →
    (t.byteAnswers = s.byteAnswers ∨
      ((s.pending = some .inByte ∨ s.pending = none ∧ decode (s.readMem s.pc) = .getc) ∧
        ∃ b : Byte, s.byteAnswers = b :: t.byteAnswers ∧ t.readReg .r0 = b.setWidth 16)) ∧
    (t.lineAnswers = s.lineAnswers ∨
      ((s.pending = some .inLine ∨ s.pending = none ∧ decode (s.readMem s.pc) = .inu16) ∧
        ∃ r : Option Word, s.lineAnswers = r :: t.lineAnswers ∧ t.readReg .r0 = r.getD (s.readReg .r0))) ∧
    (t.out = s.out ∨ ∃ e : OutEvent, t.out = s.out ++ [e])

/-! ## The invariant -/

/-- The reset state meets the invariant. -/
def Obligations.ResetMeetsInvariant : Prop := State.reset.Inv

/-- Every step keeps the invariant: canonical memory, a legal COND (10_state.md R17), a halted machine that does not
run (R223), a step in progress only while running (44_trap.md R182; the model's form, log 2, log 6). -/
def Obligations.StepKeepsInvariant : Prop :=
  ∀ s t : State, s.Inv → step s = .next t → t.Inv

/-- Every accepted move of the host keeps the invariant (15_interfaces.md R38). -/
def Obligations.HostMovesKeepInvariant : Prop :=
  ∀ (m : HostMove) (s t : State), s.Inv → hostMove m s = .next t → t.Inv

/-- Every state the machine can come to meets the invariant; and until a start the registers, the PC and COND are as
reset leaves them, so a program begins with zero registers and COND = 0b000 (70_reset_and_hazards.md R222). -/
def Obligations.ReachableStatesMeetInvariant : Prop :=
  ∀ s : State, Reachable s → s.Inv ∧
    (s.run = false → s.halted = false → (∀ r : Reg, s.readReg r = 0x0000) ∧ s.pc = 0x0000 ∧ s.cond = 0b000)

/-! ## The host -/

/-- While `RUN = 1` no move of the host changes the machine (10_state.md R22; decision D7): an accepted one only appends
to the console's answers, and so it is an answer (for `reset` this is deduced, log 17; the queues are the model's form
of the oracle, log 5). -/
def Obligations.HostLeavesRunningMachineAlone : Prop :=
  ∀ (m : HostMove) (s t : State), s.run = true → hostMove m s = .next t →
    { t with byteAnswers := s.byteAnswers, lineAnswers := s.lineAnswers } = s ∧
    (∃ bs : List Byte, t.byteAnswers = s.byteAnswers ++ bs) ∧
    (∃ rs : List (Option Word), t.lineAnswers = s.lineAnswers ++ rs) ∧
    m ≠ .reset ∧ m ≠ .start ∧ (∀ image : List Word, m ≠ .load image) ∧ (∀ bytes : List Byte, m ≠ .loadBytes bytes)
end

