-- ==== Sys2Proof/Laws/Encoding.lean ====
section
/-! SUPPORT. The small lemmas of the decoder and the encoder: register numbers, the opcode table read both ways,
and the fields of a word written as the parts a format lays side by side (30_encoding.md R61, R67). -/

namespace Sys2Proof

@[simp] theorem Reg.ofBits_toBits (r : Reg) : Reg.ofBits r.toBits = r := by cases r <;> rfl

@[simp] theorem Reg.toBits_ofBits (b : BitVec 3) : (Reg.ofBits b).toBits = b := by revert b; decide

@[simp] theorem handlerOf_opcodeOf (h : Handler) : handlerOf (opcodeOf h) = h := by cases h <;> decide

@[simp] theorem opcodeOf_handlerOf (op : BitVec 4) : opcodeOf (handlerOf op) = op := by revert op; decide

/-! A field whose bits are one of the parts laid side by side is that part. -/

/-- The bits of a field lie in the low part of an appended word when the field does. -/
theorem extractLsb'_append_low {n m : Nat} (x : BitVec n) (y : BitVec m) (start len : Nat) (h : start + len ≤ m) :
    (x ++ y).extractLsb' start len = y.extractLsb' start len := by
  ext i hi
  simp only [BitVec.getElem_extractLsb', BitVec.getLsbD_append]
  rw [if_pos (by omega)]

theorem extractLsb'_whole {n : Nat} (x : BitVec n) : x.extractLsb' 0 n = x := by
  ext i hi
  simp only [BitVec.getElem_extractLsb', Nat.zero_add, BitVec.getLsbD_eq_getElem hi]

/-- The last part. -/
theorem extractLsb'_append_last {n m : Nat} (x : BitVec n) (y : BitVec m) : (x ++ y).extractLsb' 0 m = y :=
  (extractLsb'_append_low x y 0 m (by omega)).trans (extractLsb'_whole y)

/-- A part before the last one. -/
theorem extractLsb'_append_skip {n m len start : Nat} {z : BitVec len} (x : BitVec n) (y : BitVec m)
    (h : x.extractLsb' start len = z) : (x ++ y).extractLsb' (start + m) len = z := by
  rw [← h]
  ext i hi
  simp only [BitVec.getElem_extractLsb', BitVec.getLsbD_append]
  rw [if_neg (by omega)]
  congr 1
  omega

/-- A bit in a part before the last one. -/
theorem getLsbD_append_skip {n m i : Nat} (x : BitVec n) (y : BitVec m) :
    (x ++ y).getLsbD (i + m) = x.getLsbD i := by
  rw [BitVec.getLsbD_append, if_neg (by omega)]
  congr 1
  omega

/-- A bit in the last part. -/
theorem getLsbD_append_last {n m i : Nat} (x : BitVec n) (y : BitVec m) (h : i < m) :
    (x ++ y).getLsbD i = y.getLsbD i := by
  rw [BitVec.getLsbD_append, if_pos h]

/-! The fields of each format of 30_encoding.md R67. -/

section
variable (op : BitVec 4) (d a b : BitVec 3) (x2 : BitVec 2) (x4 : BitVec 4) (x12 : BitVec 12)
  (i5 : BitVec 5) (i6 : BitVec 6) (i9 : BitVec 9) (i11 : BitVec 11) (v : BitVec 8)

theorem opcodeField_fmtOff9 : opcodeField (fmtOff9 op d i9) = op :=
  extractLsb'_append_skip _ _ (extractLsb'_append_skip _ _ (extractLsb'_whole _))
theorem nzpField_fmtOff9 : nzpField (fmtOff9 op d i9) = d :=
  extractLsb'_append_skip _ _ (extractLsb'_append_last _ _)
theorem drField_fmtOff9 : drField (fmtOff9 op d i9) = Reg.ofBits d :=
  congrArg Reg.ofBits (extractLsb'_append_skip _ _ (extractLsb'_append_last _ _))
theorem off9Field_fmtOff9 : off9Field (fmtOff9 op d i9) = i9 :=
  extractLsb'_append_last _ _

theorem opcodeField_fmtReg : opcodeField (fmtReg op d a x2 b) = op :=
  extractLsb'_append_skip _ _ (extractLsb'_append_skip _ _ (extractLsb'_append_skip _ _ (extractLsb'_append_skip _ _ (extractLsb'_append_skip _ _ (extractLsb'_whole _)))))
theorem drField_fmtReg : drField (fmtReg op d a x2 b) = Reg.ofBits d :=
  congrArg Reg.ofBits (extractLsb'_append_skip _ _ (extractLsb'_append_skip _ _ (extractLsb'_append_skip _ _ (extractLsb'_append_skip _ _ (extractLsb'_append_last _ _)))))
theorem sr1Field_fmtReg : sr1Field (fmtReg op d a x2 b) = Reg.ofBits a :=
  congrArg Reg.ofBits (extractLsb'_append_skip _ _ (extractLsb'_append_skip _ _ (extractLsb'_append_skip _ _ (extractLsb'_append_last _ _))))
theorem modeBit_fmtReg : isBitSet (fmtReg op d a x2 b) 5 = false := by
  have h : isBitSet (fmtReg op d a x2 b) 5 = (0#1 : BitVec 1).getLsbD 0 :=
    (getLsbD_append_skip _ _).trans <| (getLsbD_append_skip _ _).trans <| getLsbD_append_last _ _ (by omega)
  simpa using h
theorem sr2Field_fmtReg : sr2Field (fmtReg op d a x2 b) = Reg.ofBits b :=
  congrArg Reg.ofBits (extractLsb'_append_last _ _)

theorem opcodeField_fmtImm5 : opcodeField (fmtImm5 op d a i5) = op :=
  extractLsb'_append_skip _ _ (extractLsb'_append_skip _ _ (extractLsb'_append_skip _ _ (extractLsb'_append_skip _ _ (extractLsb'_whole _))))
theorem drField_fmtImm5 : drField (fmtImm5 op d a i5) = Reg.ofBits d :=
  congrArg Reg.ofBits (extractLsb'_append_skip _ _ (extractLsb'_append_skip _ _ (extractLsb'_append_skip _ _ (extractLsb'_append_last _ _))))
theorem sr1Field_fmtImm5 : sr1Field (fmtImm5 op d a i5) = Reg.ofBits a :=
  congrArg Reg.ofBits (extractLsb'_append_skip _ _ (extractLsb'_append_skip _ _ (extractLsb'_append_last _ _)))
theorem modeBit_fmtImm5 : isBitSet (fmtImm5 op d a i5) 5 = true := by
  have h : isBitSet (fmtImm5 op d a i5) 5 = (1#1 : BitVec 1).getLsbD 0 :=
    (getLsbD_append_skip _ _).trans <| getLsbD_append_last _ _ (by omega)
  simpa using h
theorem imm5Field_fmtImm5 : imm5Field (fmtImm5 op d a i5) = i5 :=
  extractLsb'_append_last _ _

theorem opcodeField_fmtOff6 : opcodeField (fmtOff6 op d a i6) = op :=
  extractLsb'_append_skip _ _ (extractLsb'_append_skip _ _ (extractLsb'_append_skip _ _ (extractLsb'_whole _)))
theorem drField_fmtOff6 : drField (fmtOff6 op d a i6) = Reg.ofBits d :=
  congrArg Reg.ofBits (extractLsb'_append_skip _ _ (extractLsb'_append_skip _ _ (extractLsb'_append_last _ _)))
theorem sr1Field_fmtOff6 : sr1Field (fmtOff6 op d a i6) = Reg.ofBits a :=
  congrArg Reg.ofBits (extractLsb'_append_skip _ _ (extractLsb'_append_last _ _))
theorem off6Field_fmtOff6 : off6Field (fmtOff6 op d a i6) = i6 :=
  extractLsb'_append_last _ _

theorem opcodeField_fmtOff11 : opcodeField (fmtOff11 op i11) = op :=
  extractLsb'_append_skip _ _ (extractLsb'_append_skip _ _ (extractLsb'_whole _))
theorem modeBit_fmtOff11 : isBitSet (fmtOff11 op i11) 11 = true := by
  have h : isBitSet (fmtOff11 op i11) 11 = (1#1 : BitVec 1).getLsbD 0 :=
    (getLsbD_append_skip _ _).trans <| getLsbD_append_last _ _ (by omega)
  simpa using h
theorem off11Field_fmtOff11 : off11Field (fmtOff11 op i11) = i11 :=
  extractLsb'_append_last _ _

theorem opcodeField_fmtBase : opcodeField (fmtBase op x2 a i6) = op :=
  extractLsb'_append_skip _ _ (extractLsb'_append_skip _ _ (extractLsb'_append_skip _ _ (extractLsb'_append_skip _ _ (extractLsb'_whole _))))
theorem modeBit_fmtBase : isBitSet (fmtBase op x2 a i6) 11 = false := by
  have h : isBitSet (fmtBase op x2 a i6) 11 = (0#1 : BitVec 1).getLsbD 0 :=
    (getLsbD_append_skip _ _).trans <| (getLsbD_append_skip _ _).trans <| (getLsbD_append_skip _ _).trans <| getLsbD_append_last _ _ (by omega)
  simpa using h
theorem sr1Field_fmtBase : sr1Field (fmtBase op x2 a i6) = Reg.ofBits a :=
  congrArg Reg.ofBits (extractLsb'_append_skip _ _ (extractLsb'_append_last _ _))

theorem opcodeField_fmtNone : opcodeField (fmtNone op x12) = op :=
  extractLsb'_append_skip _ _ (extractLsb'_whole _)

theorem opcodeField_fmtTrap : opcodeField (fmtTrap op x4 v) = op :=
  extractLsb'_append_skip _ _ (extractLsb'_append_skip _ _ (extractLsb'_whole _))
theorem trapField_fmtTrap : trapField (fmtTrap op x4 v) = v :=
  extractLsb'_append_last _ _

end

end Sys2Proof
end

