-- ==== Sys2Proof/Laws/HostPort.lean ====
section
/-! SUPPORT. What the host's moves can do, said once (15_interfaces.md R38). -/

namespace Sys2Proof.Machine

/-- What an accepted load does (20_memory.md R52). -/
theorem loadImage_cases {image : List Word} {s t : State} (h : loadImage image s = .next t) :
    s.run = false ∧ image.length ≤ maxImageWords ∧ t = { s with mem := s.mem.writeWords origin image } := by
  unfold loadImage at h
  split at h
  · cases h
  · split at h
    · cases h
    · injection h with h
      exact ⟨by simpa using ‹¬ s.run = true›, by omega, h.symm⟩

/-- What an accepted move does, and when it is accepted. -/
theorem hostMove_cases {m : HostMove} {s t : State} (h : hostMove m s = .next t) :
    (m = .reset ∧ s.run = false ∧ t = s.hostReset) ∨
    (s.run = false ∧ ∃ image, image.length ≤ maxImageWords ∧
      (m = .load image ∨ ∃ bytes, m = .loadBytes bytes) ∧ t = { s with mem := s.mem.writeWords origin image }) ∨
    (m = .start ∧ s.run = false ∧ s.halted = false ∧ t = s.begin) ∨
    (∃ b, m = .answerByte b ∧ t = { s with byteAnswers := s.byteAnswers ++ [b] }) ∨
    ∃ r, (m = .answerLine r ∨ ∃ text, m = .answerText text) ∧ t = { s with lineAnswers := s.lineAnswers ++ [r] } := by
  cases m with
  | reset =>
    simp only [hostMove] at h
    split at h
    · cases h
    · injection h with h
      exact .inl ⟨rfl, by simpa using ‹¬ s.run = true›, h.symm⟩
  | load image =>
    obtain ⟨hr, hl, ht⟩ := loadImage_cases h
    exact .inr (.inl ⟨hr, image, hl, .inl rfl, ht⟩)
  | loadBytes bytes =>
    simp only [hostMove] at h
    split at h
    · rename_i image _
      obtain ⟨hr, hl, ht⟩ := loadImage_cases h
      exact .inr (.inl ⟨hr, image, hl, .inr ⟨bytes, rfl⟩, ht⟩)
    · cases h
  | start =>
    simp only [hostMove] at h
    split at h
    · rename_i hs
      injection h with h
      simp only [startAccepted, Bool.and_eq_true, Bool.not_eq_true'] at hs
      exact .inr (.inr (.inl ⟨rfl, hs.1, hs.2, h.symm⟩))
    · cases h
  | answerByte b => injection h with h; exact .inr (.inr (.inr (.inl ⟨b, rfl, h.symm⟩)))
  | answerLine r => injection h with h; exact .inr (.inr (.inr (.inr ⟨r, .inl rfl, h.symm⟩)))
  | answerText text => injection h with h; exact .inr (.inr (.inr (.inr ⟨_, .inr ⟨text, rfl⟩, h.symm⟩)))

end Sys2Proof.Machine
end

