-- ==== Sys2Proof/Laws/Memory.lean ====
section
/-! SUPPORT. The laws of memory (20_memory.md R53): a read after a write to the same address gives the value written,
a write leaves every other address alone, and every memory operation keeps the canonical form. -/

namespace Sys2Proof.Machine

theorem Memory.lookup_erase_same (m : Memory) (k : Nat) : (m.erase k).lookup k = 0 := by
  induction m with
  | nil => rfl
  | cons c rest ih =>
    by_cases h : c.1 = k
    · simp [Memory.erase, h, ih]
    · simp [Memory.erase, Memory.lookup, h, ih]

theorem Memory.lookup_erase_other (m : Memory) {k j : Nat} (hj : j ≠ k) : (m.erase k).lookup j = m.lookup j := by
  induction m with
  | nil => rfl
  | cons c rest ih =>
    by_cases h : c.1 = k
    · have : c.1 ≠ j := fun e => hj (e.symm.trans h)
      simp [Memory.erase, Memory.lookup, h, ih, hj.symm]
    · by_cases h' : c.1 = j <;> simp [Memory.erase, Memory.lookup, h, h', ih, hj]

theorem Memory.lookup_insert_same (m : Memory) (k : Nat) (v : Word) (h : ∀ c ∈ m, c.1 ≠ k) :
    (m.insert k v).lookup k = v := by
  induction m with
  | nil => simp [Memory.insert, Memory.lookup]
  | cons c rest ih =>
    have hc : c.1 ≠ k := h c (by simp)
    have hr := ih (fun d hd => h d (by simp [hd]))
    by_cases hk : k < c.1
    · simp [Memory.insert, Memory.lookup, hk]
    · simp [Memory.insert, Memory.lookup, hk, hc, hr]

theorem Memory.lookup_insert_other (m : Memory) {k j : Nat} (v : Word) (hj : j ≠ k) :
    (m.insert k v).lookup j = m.lookup j := by
  induction m with
  | nil => simp [Memory.insert, Memory.lookup, hj.symm]
  | cons c rest ih =>
    by_cases hk : k < c.1 <;> simp [Memory.insert, Memory.lookup, hk, hj.symm, ih]

theorem Memory.mem_erase {m : Memory} {k : Nat} {c : Cell} : c ∈ m.erase k ↔ c ∈ m ∧ c.1 ≠ k := by
  induction m with
  | nil => simp [Memory.erase]
  | cons d rest ih =>
    by_cases h : d.1 = k
    · simp only [Memory.erase, h, if_true, ih, List.mem_cons]
      constructor
      · rintro ⟨hm, hne⟩; exact ⟨.inr hm, hne⟩
      · rintro ⟨rfl | hm, hne⟩
        · exact absurd h hne
        · exact ⟨hm, hne⟩
    · simp only [Memory.erase, h, if_false, List.mem_cons, ih]
      constructor
      · rintro (rfl | ⟨hm, hne⟩)
        · exact ⟨.inl rfl, h⟩
        · exact ⟨.inr hm, hne⟩
      · rintro ⟨rfl | hm, hne⟩
        · exact .inl rfl
        · exact .inr ⟨hm, hne⟩

theorem Memory.mem_insert {m : Memory} {k : Nat} {v : Word} {c : Cell} :
    c ∈ m.insert k v ↔ c = (k, v) ∨ c ∈ m := by
  induction m with
  | nil => simp [Memory.insert]
  | cons d rest ih =>
    by_cases h : k < d.1
    · simp [Memory.insert, h]
    · simp only [Memory.insert, h, if_false, List.mem_cons, ih]
      tauto

/-- A read after a write to the same address (R53), in every memory. -/
@[simp] theorem Memory.read_write_same (m : Memory) (a v : Word) : (m.write a v).read a = v := by
  unfold Memory.write Memory.read
  split
  · rename_i h
    rw [Memory.lookup_erase_same, h]
  · exact Memory.lookup_insert_same _ _ _ (fun c hc => (Memory.mem_erase.mp hc).2)

/-- A write leaves every other address alone (R53), in every memory. -/
theorem Memory.read_write_other (m : Memory) {a b : Word} (v : Word) (h : b ≠ a) :
    (m.write a v).read b = m.read b := by
  have hn : b.toNat ≠ a.toNat := fun e => h (BitVec.eq_of_toNat_eq e)
  unfold Memory.write Memory.read
  split
  · exact Memory.lookup_erase_other m hn
  · rw [Memory.lookup_insert_other _ _ hn, Memory.lookup_erase_other m hn]

@[simp] theorem Memory.read_nil (a : Word) : Memory.read [] a = 0 := rfl

theorem Memory.wf_nil : Memory.wf [] := ⟨List.Pairwise.nil, fun _ h => by cases h⟩

theorem Memory.wf_erase {m : Memory} (h : m.wf) (k : Nat) : Memory.wf (m.erase k) := by
  refine ⟨?_, fun c hc => h.2 c (Memory.mem_erase.mp hc).1⟩
  obtain ⟨hp, -⟩ := h
  induction m with
  | nil => exact .nil
  | cons d rest ih =>
    rw [List.pairwise_cons] at hp
    by_cases hd : d.1 = k
    · simpa [Memory.erase, hd] using ih hp.2
    · simp only [Memory.erase, hd, if_false, List.pairwise_cons]
      exact ⟨fun c hc => hp.1 c (Memory.mem_erase.mp hc).1, ih hp.2⟩

theorem Memory.wf_insert {m : Memory} (h : m.wf) {k : Nat} {v : Word} (hk : k < 65536) (hv : v ≠ 0)
    (hn : ∀ c ∈ m, c.1 ≠ k) : Memory.wf (m.insert k v) := by
  refine ⟨?_, fun c hc => ?_⟩
  · obtain ⟨hp, -⟩ := h
    induction m with
    | nil => simp [Memory.insert]
    | cons d rest ih =>
      rw [List.pairwise_cons] at hp
      by_cases hd : k < d.1
      · simp only [Memory.insert, hd, if_true, List.pairwise_cons, List.mem_cons]
        exact ⟨by rintro c (rfl | hc); exacts [hd, lt_trans hd (hp.1 c hc)], hp⟩
      · simp only [Memory.insert, hd, if_false, List.pairwise_cons]
        refine ⟨fun c hc => ?_, ih (fun c hc => hn c (by simp [hc])) hp.2⟩
        rcases Memory.mem_insert.mp hc with rfl | hc
        · have := hn d (by simp)
          simp only
          omega
        · exact hp.1 c hc
  · rcases Memory.mem_insert.mp hc with rfl | hc
    · exact ⟨hk, hv⟩
    · exact h.2 c hc

/-- A write keeps the canonical form. -/
theorem Memory.wf_write {m : Memory} (h : m.wf) (a v : Word) : Memory.wf (m.write a v) := by
  unfold Memory.write
  split
  · exact Memory.wf_erase h _
  · rename_i hv
    exact Memory.wf_insert (Memory.wf_erase h _) a.isLt hv (fun c hc => (Memory.mem_erase.mp hc).2)

/-- The loader keeps the canonical form. -/
theorem Memory.wf_writeWords {m : Memory} (h : m.wf) (a : Word) (ws : List Word) :
    Memory.wf (m.writeWords a ws) := by
  induction ws generalizing m a with
  | nil => exact h
  | cons w rest ih => exact ih (Memory.wf_write h a w) (a + 1)

theorem State.reset_mem_wf : State.reset.mem.wf := Memory.wf_nil

@[simp] theorem State.readMem_writeMem_same (s : State) (a v : Word) : (s.writeMem a v).readMem a = v :=
  Memory.read_write_same s.mem a v

theorem State.readMem_writeMem_other (s : State) {a b : Word} (v : Word) (h : b ≠ a) :
    (s.writeMem a v).readMem b = s.readMem b :=
  Memory.read_write_other s.mem v h

end Sys2Proof.Machine
end

