-- ==== Sys2Proof/Laws/PerInstr.lean ====
section
/-! SUPPORT. What holds of every instruction as it is written, one lemma per constructor: the encoder writes the
opcode of the instruction's own handler (30_encoding.md R66). -/

namespace Sys2Proof.Laws.EncodeOpcode

/-- Bits 15..12 of the encoded word are the opcode of the instruction's handler. -/
def Statement (i : Instr) : Prop := opcodeField (encode i) = opcodeOf i.handler

theorem br (nzp : BitVec 3) (off : BitVec 9) : Statement (.br nzp off) := opcodeField_fmtOff9 ..
theorem addReg (dr sr1 sr2 : Reg) : Statement (.addReg dr sr1 sr2) := opcodeField_fmtReg ..
theorem addImm (dr sr1 : Reg) (imm : BitVec 5) : Statement (.addImm dr sr1 imm) := opcodeField_fmtImm5 ..
theorem ld (dr : Reg) (off : BitVec 9) : Statement (.ld dr off) := opcodeField_fmtOff9 ..
theorem st (sr : Reg) (off : BitVec 9) : Statement (.st sr off) := opcodeField_fmtOff9 ..
theorem jsr (off : BitVec 11) : Statement (.jsr off) := opcodeField_fmtOff11 ..
theorem jsrr (base : Reg) : Statement (.jsrr base) := opcodeField_fmtBase ..
theorem andReg (dr sr1 sr2 : Reg) : Statement (.andReg dr sr1 sr2) := opcodeField_fmtReg ..
theorem andImm (dr sr1 : Reg) (imm : BitVec 5) : Statement (.andImm dr sr1 imm) := opcodeField_fmtImm5 ..
theorem ldr (dr base : Reg) (off : BitVec 6) : Statement (.ldr dr base off) := opcodeField_fmtOff6 ..
theorem str (sr base : Reg) (off : BitVec 6) : Statement (.str sr base off) := opcodeField_fmtOff6 ..
theorem rti : Statement .rti := opcodeField_fmtNone ..
theorem not (dr sr1 : Reg) : Statement (.not dr sr1) := opcodeField_fmtOff6 ..
theorem ldi (dr : Reg) (off : BitVec 9) : Statement (.ldi dr off) := opcodeField_fmtOff9 ..
theorem sti (sr : Reg) (off : BitVec 9) : Statement (.sti sr off) := opcodeField_fmtOff9 ..
theorem jmp (base : Reg) : Statement (.jmp base) := opcodeField_fmtOff6 ..
theorem res : Statement .res := opcodeField_fmtNone ..
theorem lea (dr : Reg) (off : BitVec 9) : Statement (.lea dr off) := opcodeField_fmtOff9 ..
theorem trap (vec : BitVec 8) : Statement (.trap vec) := opcodeField_fmtTrap ..
theorem getc : Statement .getc := opcodeField_fmtTrap ..
theorem putc : Statement .putc := opcodeField_fmtTrap ..
theorem puts : Statement .puts := opcodeField_fmtTrap ..
theorem inTrap : Statement .inTrap := opcodeField_fmtTrap ..
theorem putsp : Statement .putsp := opcodeField_fmtTrap ..
theorem halt : Statement .halt := opcodeField_fmtTrap ..
theorem inu16 : Statement .inu16 := opcodeField_fmtTrap ..
theorem outu16 : Statement .outu16 := opcodeField_fmtTrap ..

end Sys2Proof.Laws.EncodeOpcode
end

