-- ==== Sys2Proof/Laws/State.lean ====
section
/-! SUPPORT. One lemma per field per update of the state, true by unfolding, so that no later proof unfolds a record
update; and the read-after-write laws of the register file. -/

namespace Sys2Proof.Machine

variable (s : State)

@[simp] theorem State.writeReg_regs (r : Reg) (v : Word) : (s.writeReg r v).regs = s.regs.set r v := rfl
@[simp] theorem State.writeReg_pc (r : Reg) (v : Word) : (s.writeReg r v).pc = s.pc := rfl
@[simp] theorem State.writeReg_cond (r : Reg) (v : Word) : (s.writeReg r v).cond = s.cond := rfl
@[simp] theorem State.writeReg_run (r : Reg) (v : Word) : (s.writeReg r v).run = s.run := rfl
@[simp] theorem State.writeReg_mem (r : Reg) (v : Word) : (s.writeReg r v).mem = s.mem := rfl
@[simp] theorem State.writeReg_halted (r : Reg) (v : Word) : (s.writeReg r v).halted = s.halted := rfl
@[simp] theorem State.writeReg_pending (r : Reg) (v : Word) : (s.writeReg r v).pending = s.pending := rfl
@[simp] theorem State.writeReg_byteAnswers (r : Reg) (v : Word) : (s.writeReg r v).byteAnswers = s.byteAnswers := rfl
@[simp] theorem State.writeReg_lineAnswers (r : Reg) (v : Word) : (s.writeReg r v).lineAnswers = s.lineAnswers := rfl
@[simp] theorem State.writeReg_out (r : Reg) (v : Word) : (s.writeReg r v).out = s.out := rfl
@[simp] theorem State.writeReg_observer (r : Reg) (v : Word) : (s.writeReg r v).observer = s.observer := rfl

@[simp] theorem State.setPc_regs (v : Word) : (s.setPc v).regs = s.regs := rfl
@[simp] theorem State.setPc_pc (v : Word) : (s.setPc v).pc = v := rfl
@[simp] theorem State.setPc_cond (v : Word) : (s.setPc v).cond = s.cond := rfl
@[simp] theorem State.setPc_run (v : Word) : (s.setPc v).run = s.run := rfl
@[simp] theorem State.setPc_mem (v : Word) : (s.setPc v).mem = s.mem := rfl
@[simp] theorem State.setPc_halted (v : Word) : (s.setPc v).halted = s.halted := rfl
@[simp] theorem State.setPc_pending (v : Word) : (s.setPc v).pending = s.pending := rfl
@[simp] theorem State.setPc_byteAnswers (v : Word) : (s.setPc v).byteAnswers = s.byteAnswers := rfl
@[simp] theorem State.setPc_lineAnswers (v : Word) : (s.setPc v).lineAnswers = s.lineAnswers := rfl
@[simp] theorem State.setPc_out (v : Word) : (s.setPc v).out = s.out := rfl
@[simp] theorem State.setPc_observer (v : Word) : (s.setPc v).observer = s.observer := rfl

@[simp] theorem State.writeMem_regs (a v : Word) : (s.writeMem a v).regs = s.regs := rfl
@[simp] theorem State.writeMem_pc (a v : Word) : (s.writeMem a v).pc = s.pc := rfl
@[simp] theorem State.writeMem_cond (a v : Word) : (s.writeMem a v).cond = s.cond := rfl
@[simp] theorem State.writeMem_run (a v : Word) : (s.writeMem a v).run = s.run := rfl
@[simp] theorem State.writeMem_mem (a v : Word) : (s.writeMem a v).mem = s.mem.write a v := rfl
@[simp] theorem State.writeMem_halted (a v : Word) : (s.writeMem a v).halted = s.halted := rfl
@[simp] theorem State.writeMem_pending (a v : Word) : (s.writeMem a v).pending = s.pending := rfl
@[simp] theorem State.writeMem_byteAnswers (a v : Word) : (s.writeMem a v).byteAnswers = s.byteAnswers := rfl
@[simp] theorem State.writeMem_lineAnswers (a v : Word) : (s.writeMem a v).lineAnswers = s.lineAnswers := rfl
@[simp] theorem State.writeMem_out (a v : Word) : (s.writeMem a v).out = s.out := rfl
@[simp] theorem State.writeMem_observer (a v : Word) : (s.writeMem a v).observer = s.observer := rfl

@[simp] theorem State.consoleOut_regs (e : OutEvent) : (s.consoleOut e).regs = s.regs := rfl
@[simp] theorem State.consoleOut_pc (e : OutEvent) : (s.consoleOut e).pc = s.pc := rfl
@[simp] theorem State.consoleOut_cond (e : OutEvent) : (s.consoleOut e).cond = s.cond := rfl
@[simp] theorem State.consoleOut_run (e : OutEvent) : (s.consoleOut e).run = s.run := rfl
@[simp] theorem State.consoleOut_mem (e : OutEvent) : (s.consoleOut e).mem = s.mem := rfl
@[simp] theorem State.consoleOut_halted (e : OutEvent) : (s.consoleOut e).halted = s.halted := rfl
@[simp] theorem State.consoleOut_pending (e : OutEvent) : (s.consoleOut e).pending = s.pending := rfl
@[simp] theorem State.consoleOut_byteAnswers (e : OutEvent) : (s.consoleOut e).byteAnswers = s.byteAnswers := rfl
@[simp] theorem State.consoleOut_lineAnswers (e : OutEvent) : (s.consoleOut e).lineAnswers = s.lineAnswers := rfl
@[simp] theorem State.consoleOut_out (e : OutEvent) : (s.consoleOut e).out = s.out ++ [e] := rfl
@[simp] theorem State.consoleOut_observer (e : OutEvent) : (s.consoleOut e).observer = s.observer := rfl

@[simp] theorem State.observe_regs (o : ObsRecord) : (s.observe o).regs = s.regs := rfl
@[simp] theorem State.observe_pc (o : ObsRecord) : (s.observe o).pc = s.pc := rfl
@[simp] theorem State.observe_cond (o : ObsRecord) : (s.observe o).cond = s.cond := rfl
@[simp] theorem State.observe_run (o : ObsRecord) : (s.observe o).run = s.run := rfl
@[simp] theorem State.observe_mem (o : ObsRecord) : (s.observe o).mem = s.mem := rfl
@[simp] theorem State.observe_halted (o : ObsRecord) : (s.observe o).halted = s.halted := rfl
@[simp] theorem State.observe_pending (o : ObsRecord) : (s.observe o).pending = s.pending := rfl
@[simp] theorem State.observe_byteAnswers (o : ObsRecord) : (s.observe o).byteAnswers = s.byteAnswers := rfl
@[simp] theorem State.observe_lineAnswers (o : ObsRecord) : (s.observe o).lineAnswers = s.lineAnswers := rfl
@[simp] theorem State.observe_out (o : ObsRecord) : (s.observe o).out = s.out := rfl
@[simp] theorem State.observe_observer (o : ObsRecord) : (s.observe o).observer = s.observer ++ [o] := rfl

@[simp] theorem State.logEvent_regs (e : LogEvent) : (s.logEvent e).regs = s.regs := rfl
@[simp] theorem State.logEvent_pc (e : LogEvent) : (s.logEvent e).pc = s.pc := rfl
@[simp] theorem State.logEvent_cond (e : LogEvent) : (s.logEvent e).cond = s.cond := rfl
@[simp] theorem State.logEvent_run (e : LogEvent) : (s.logEvent e).run = s.run := rfl
@[simp] theorem State.logEvent_mem (e : LogEvent) : (s.logEvent e).mem = s.mem := rfl
@[simp] theorem State.logEvent_halted (e : LogEvent) : (s.logEvent e).halted = s.halted := rfl
@[simp] theorem State.logEvent_pending (e : LogEvent) : (s.logEvent e).pending = s.pending := rfl
@[simp] theorem State.logEvent_byteAnswers (e : LogEvent) : (s.logEvent e).byteAnswers = s.byteAnswers := rfl
@[simp] theorem State.logEvent_lineAnswers (e : LogEvent) : (s.logEvent e).lineAnswers = s.lineAnswers := rfl
@[simp] theorem State.logEvent_out (e : LogEvent) : (s.logEvent e).out = s.out := rfl
@[simp] theorem State.logEvent_observer (e : LogEvent) : (s.logEvent e).observer = s.observer ++ [.log e] := rfl

@[simp] theorem State.hold_regs (p : Pending) : (s.hold p).regs = s.regs := rfl
@[simp] theorem State.hold_pc (p : Pending) : (s.hold p).pc = s.pc := rfl
@[simp] theorem State.hold_cond (p : Pending) : (s.hold p).cond = s.cond := rfl
@[simp] theorem State.hold_run (p : Pending) : (s.hold p).run = s.run := rfl
@[simp] theorem State.hold_mem (p : Pending) : (s.hold p).mem = s.mem := rfl
@[simp] theorem State.hold_halted (p : Pending) : (s.hold p).halted = s.halted := rfl
@[simp] theorem State.hold_pending (p : Pending) : (s.hold p).pending = some p := rfl
@[simp] theorem State.hold_byteAnswers (p : Pending) : (s.hold p).byteAnswers = s.byteAnswers := rfl
@[simp] theorem State.hold_lineAnswers (p : Pending) : (s.hold p).lineAnswers = s.lineAnswers := rfl
@[simp] theorem State.hold_out (p : Pending) : (s.hold p).out = s.out := rfl
@[simp] theorem State.hold_observer (p : Pending) : (s.hold p).observer = s.observer := rfl

@[simp] theorem State.complete_regs : (s.complete).regs = s.regs := rfl
@[simp] theorem State.complete_pc : (s.complete).pc = s.pc := rfl
@[simp] theorem State.complete_cond : (s.complete).cond = s.cond := rfl
@[simp] theorem State.complete_run : (s.complete).run = s.run := rfl
@[simp] theorem State.complete_mem : (s.complete).mem = s.mem := rfl
@[simp] theorem State.complete_halted : (s.complete).halted = s.halted := rfl
@[simp] theorem State.complete_pending : (s.complete).pending = none := rfl
@[simp] theorem State.complete_byteAnswers : (s.complete).byteAnswers = s.byteAnswers := rfl
@[simp] theorem State.complete_lineAnswers : (s.complete).lineAnswers = s.lineAnswers := rfl
@[simp] theorem State.complete_out : (s.complete).out = s.out := rfl
@[simp] theorem State.complete_observer : (s.complete).observer = s.observer := rfl

@[simp] theorem State.setcc_regs (v : Word) : (s.setcc v).regs = s.regs := rfl
@[simp] theorem State.setcc_pc (v : Word) : (s.setcc v).pc = s.pc := rfl
@[simp] theorem State.setcc_cond (v : Word) : (s.setcc v).cond = flagsOf v := rfl
@[simp] theorem State.setcc_run (v : Word) : (s.setcc v).run = s.run := rfl
@[simp] theorem State.setcc_mem (v : Word) : (s.setcc v).mem = s.mem := rfl
@[simp] theorem State.setcc_halted (v : Word) : (s.setcc v).halted = s.halted := rfl
@[simp] theorem State.setcc_pending (v : Word) : (s.setcc v).pending = s.pending := rfl
@[simp] theorem State.setcc_byteAnswers (v : Word) : (s.setcc v).byteAnswers = s.byteAnswers := rfl
@[simp] theorem State.setcc_lineAnswers (v : Word) : (s.setcc v).lineAnswers = s.lineAnswers := rfl
@[simp] theorem State.setcc_out (v : Word) : (s.setcc v).out = s.out := rfl
@[simp] theorem State.setcc_observer (v : Word) : (s.setcc v).observer = s.observer := rfl

@[simp] theorem State.writeDest_regs (r : Reg) (v : Word) : (s.writeDest r v).regs = s.regs.set r v := rfl
@[simp] theorem State.writeDest_pc (r : Reg) (v : Word) : (s.writeDest r v).pc = s.pc := rfl
@[simp] theorem State.writeDest_cond (r : Reg) (v : Word) : (s.writeDest r v).cond = flagsOf v := rfl
@[simp] theorem State.writeDest_run (r : Reg) (v : Word) : (s.writeDest r v).run = s.run := rfl
@[simp] theorem State.writeDest_mem (r : Reg) (v : Word) : (s.writeDest r v).mem = s.mem := rfl
@[simp] theorem State.writeDest_halted (r : Reg) (v : Word) : (s.writeDest r v).halted = s.halted := rfl
@[simp] theorem State.writeDest_pending (r : Reg) (v : Word) : (s.writeDest r v).pending = s.pending := rfl
@[simp] theorem State.writeDest_byteAnswers (r : Reg) (v : Word) : (s.writeDest r v).byteAnswers = s.byteAnswers := rfl
@[simp] theorem State.writeDest_lineAnswers (r : Reg) (v : Word) : (s.writeDest r v).lineAnswers = s.lineAnswers := rfl
@[simp] theorem State.writeDest_out (r : Reg) (v : Word) : (s.writeDest r v).out = s.out := rfl
@[simp] theorem State.writeDest_observer (r : Reg) (v : Word) : (s.writeDest r v).observer = s.observer := rfl

@[simp] theorem State.link_regs : (s.link).regs = s.regs.set .r7 s.pc := rfl
@[simp] theorem State.link_pc : (s.link).pc = s.pc := rfl
@[simp] theorem State.link_cond : (s.link).cond = s.cond := rfl
@[simp] theorem State.link_run : (s.link).run = s.run := rfl
@[simp] theorem State.link_mem : (s.link).mem = s.mem := rfl
@[simp] theorem State.link_halted : (s.link).halted = s.halted := rfl
@[simp] theorem State.link_pending : (s.link).pending = s.pending := rfl
@[simp] theorem State.link_byteAnswers : (s.link).byteAnswers = s.byteAnswers := rfl
@[simp] theorem State.link_lineAnswers : (s.link).lineAnswers = s.lineAnswers := rfl
@[simp] theorem State.link_out : (s.link).out = s.out := rfl
@[simp] theorem State.link_observer : (s.link).observer = s.observer := rfl

@[simp] theorem State.afterFetch_regs : (s.afterFetch).regs = s.regs := rfl
@[simp] theorem State.afterFetch_pc : (s.afterFetch).pc = aluAdd s.pc 1 := rfl
@[simp] theorem State.afterFetch_cond : (s.afterFetch).cond = s.cond := rfl
@[simp] theorem State.afterFetch_run : (s.afterFetch).run = s.run := rfl
@[simp] theorem State.afterFetch_mem : (s.afterFetch).mem = s.mem := rfl
@[simp] theorem State.afterFetch_halted : (s.afterFetch).halted = s.halted := rfl
@[simp] theorem State.afterFetch_pending : (s.afterFetch).pending = s.pending := rfl
@[simp] theorem State.afterFetch_byteAnswers : (s.afterFetch).byteAnswers = s.byteAnswers := rfl
@[simp] theorem State.afterFetch_lineAnswers : (s.afterFetch).lineAnswers = s.lineAnswers := rfl
@[simp] theorem State.afterFetch_out : (s.afterFetch).out = s.out := rfl
@[simp] theorem State.afterFetch_observer : (s.afterFetch).observer = s.observer ++ [.trace (traceOf s)] := rfl

@[simp] theorem State.begin_regs : (s.begin).regs = s.regs := rfl
@[simp] theorem State.begin_pc : (s.begin).pc = origin := rfl
@[simp] theorem State.begin_cond : (s.begin).cond = s.cond := rfl
@[simp] theorem State.begin_run : (s.begin).run = true := rfl
@[simp] theorem State.begin_mem : (s.begin).mem = s.mem := rfl
@[simp] theorem State.begin_halted : (s.begin).halted = s.halted := rfl
@[simp] theorem State.begin_pending : (s.begin).pending = s.pending := rfl
@[simp] theorem State.begin_byteAnswers : (s.begin).byteAnswers = s.byteAnswers := rfl
@[simp] theorem State.begin_lineAnswers : (s.begin).lineAnswers = s.lineAnswers := rfl
@[simp] theorem State.begin_out : (s.begin).out = s.out := rfl
@[simp] theorem State.begin_observer : (s.begin).observer = s.observer := rfl

@[simp] theorem State.hostReset_regs : (s.hostReset).regs = Regs.zero := rfl
@[simp] theorem State.hostReset_pc : (s.hostReset).pc = 0 := rfl
@[simp] theorem State.hostReset_cond : (s.hostReset).cond = 0 := rfl
@[simp] theorem State.hostReset_run : (s.hostReset).run = false := rfl
@[simp] theorem State.hostReset_mem : (s.hostReset).mem = [] := rfl
@[simp] theorem State.hostReset_halted : (s.hostReset).halted = false := rfl
@[simp] theorem State.hostReset_pending : (s.hostReset).pending = none := rfl
@[simp] theorem State.hostReset_byteAnswers : (s.hostReset).byteAnswers = s.byteAnswers := rfl
@[simp] theorem State.hostReset_lineAnswers : (s.hostReset).lineAnswers = s.lineAnswers := rfl
@[simp] theorem State.hostReset_out : (s.hostReset).out = s.out := rfl
@[simp] theorem State.hostReset_observer : (s.hostReset).observer = s.observer := rfl

/-! Registers. -/

@[simp] theorem Regs.get_set_same (rs : Regs) (r : Reg) (v : Word) : (rs.set r v).get r = v := by
  cases r <;> rfl

theorem Regs.get_set_other (rs : Regs) (r q : Reg) (v : Word) (h : q ≠ r) : (rs.set r v).get q = rs.get q := by
  cases r <;> cases q <;> first | rfl | exact absurd rfl h

@[simp] theorem State.readReg_writeReg_same (r : Reg) (v : Word) : (s.writeReg r v).readReg r = v :=
  Regs.get_set_same s.regs r v

theorem State.readReg_writeReg_other (r q : Reg) (v : Word) (h : q ≠ r) :
    (s.writeReg r v).readReg q = s.readReg q :=
  Regs.get_set_other s.regs r q v h

@[simp] theorem State.readReg_writeDest_same (r : Reg) (v : Word) : (s.writeDest r v).readReg r = v :=
  Regs.get_set_same s.regs r v

theorem State.readReg_writeDest_other (r q : Reg) (v : Word) (h : q ≠ r) :
    (s.writeDest r v).readReg q = s.readReg q :=
  Regs.get_set_other s.regs r q v h

/-- Reads see the register file only. -/
theorem State.readReg_of_regs {s t : State} (h : t.regs = s.regs) (r : Reg) : t.readReg r = s.readReg r :=
  congrArg (fun rs => rs.get r) h

/-- Reads see the memory only. -/
theorem State.readMem_of_mem {s t : State} (h : t.mem = s.mem) (a : Word) : t.readMem a = s.readMem a :=
  congrArg (fun m => m.read a) h

/-- Two register files that read alike are equal. -/
theorem Regs.ext_get {rs qs : Regs} (h : ∀ r, rs.get r = qs.get r) : rs = qs := by
  cases rs; cases qs
  simp only [Regs.mk.injEq]
  exact ⟨h .r0, h .r1, h .r2, h .r3, h .r4, h .r5, h .r6, h .r7⟩

end Sys2Proof.Machine
end

