-- ==== Sys2Proof/Laws/Trap.lean ====
section
/-! SUPPORT. What the trap routines do, once each (44_trap.md): which state each gives, and what none of them
touches. -/

namespace Sys2Proof.Machine

variable (s : State)

/-! GETC. -/

theorem trapGetc_hold (h : s.byteAnswers = []) : trapGetc s = s.hold .inByte := by simp [trapGetc, h]

theorem trapGetc_take {b : Byte} {rest : List Byte} (h : s.byteAnswers = b :: rest) :
    trapGetc s = { s.complete.writeReg .r0 (zext b) with byteAnswers := rest } := by simp [trapGetc, h]

theorem trapGetc_cases : (s.byteAnswers = [] ∧ trapGetc s = s.hold .inByte) ∨
    ∃ b rest, s.byteAnswers = b :: rest ∧
      trapGetc s = { s.complete.writeReg .r0 (zext b) with byteAnswers := rest } := by
  cases h : s.byteAnswers with
  | nil => exact .inl ⟨rfl, trapGetc_hold s h⟩
  | cons b rest => exact .inr ⟨b, rest, rfl, trapGetc_take s h⟩

/-! INU16. -/

theorem trapInu16_hold (h : s.lineAnswers = []) : trapInu16 s = s.hold .inLine := by simp [trapInu16, h]

theorem trapInu16_some {v : Word} {rest : List (Option Word)} (h : s.lineAnswers = some v :: rest) :
    trapInu16 s = { s.complete.writeReg .r0 v with lineAnswers := rest } := by simp [trapInu16, h]

theorem trapInu16_none {rest : List (Option Word)} (h : s.lineAnswers = none :: rest) :
    trapInu16 s = { s.complete.logEvent .hexParseFailure with lineAnswers := rest } := by simp [trapInu16, h]

theorem trapInu16_cases : (s.lineAnswers = [] ∧ trapInu16 s = s.hold .inLine) ∨
    (∃ v rest, s.lineAnswers = some v :: rest ∧
      trapInu16 s = { s.complete.writeReg .r0 v with lineAnswers := rest }) ∨
    ∃ rest, s.lineAnswers = none :: rest ∧
      trapInu16 s = { s.complete.logEvent .hexParseFailure with lineAnswers := rest } := by
  cases h : s.lineAnswers with
  | nil => exact .inl ⟨rfl, trapInu16_hold s h⟩
  | cons r rest =>
    cases r with
    | none => exact .inr (.inr ⟨rest, rfl, trapInu16_none s h⟩)
    | some v => exact .inr (.inl ⟨v, rest, rfl, trapInu16_some s h⟩)

/-! PUTS. -/

theorem trapPuts_some {ws : List Word} (h : scanString memWords s.mem (s.readReg .r0) = some ws) :
    trapPuts s = s.complete.consoleOut (.outString ws) := by simp [trapPuts, h]

theorem trapPuts_none (h : scanString memWords s.mem (s.readReg .r0) = none) :
    trapPuts s = s.hold .putsLoop := by simp [trapPuts, h]

theorem trapPuts_cases : (scanString memWords s.mem (s.readReg .r0) = none ∧ trapPuts s = s.hold .putsLoop) ∨
    ∃ ws, scanString memWords s.mem (s.readReg .r0) = some ws ∧
      trapPuts s = s.complete.consoleOut (.outString ws) := by
  cases h : scanString memWords s.mem (s.readReg .r0) with
  | none => exact .inl ⟨rfl, trapPuts_none s h⟩
  | some ws => exact .inr ⟨ws, rfl, trapPuts_some s h⟩

/-- One turn of the PUTS loop (R173). -/
theorem scanString_succ (n : Nat) (m : Memory) (a : Word) : scanString (n + 1) m a =
    if m.read a = 0 then some [] else (scanString n m (a + 1)).map (fun ws => m.read a :: ws) := rfl

/-- The loop sees the memory by its reads only. -/
theorem scanString_congr {m m' : Memory} (h : ∀ a, m'.read a = m.read a) (n : Nat) (a : Word) :
    scanString n m' a = scanString n m a := by
  induction n generalizing a with
  | zero => rfl
  | succ n ih => simp only [scanString_succ, h, ih]

/-- The loop of PUTS up to a zero word that its reads reach (R173). -/
theorem scanString_eq_some (m : Memory) {fuel n : Nat} {a : Word} (hn : n < fuel)
    (hne : ∀ k, k < n → m.read (a + BitVec.ofNat 16 k) ≠ 0) (hz : m.read (a + BitVec.ofNat 16 n) = 0) :
    scanString fuel m a = some ((List.range n).map fun k => m.read (a + BitVec.ofNat 16 k)) := by
  induction fuel generalizing n a with
  | zero => omega
  | succ f ih =>
    have e : ∀ k, a + 1 + BitVec.ofNat 16 k = a + BitVec.ofNat 16 (k + 1) := by
      intro k
      apply BitVec.eq_of_toNat_eq
      have h1 : (1 : Word).toNat = 1 := rfl
      simp only [BitVec.toNat_add, BitVec.toNat_ofNat, h1]
      omega
    have h0 : a + BitVec.ofNat 16 0 = a := BitVec.add_zero a
    rw [scanString_succ]
    cases n with
    | zero =>
      rw [h0] at hz
      rw [if_pos hz]
      rfl
    | succ n =>
      have hr : m.read a ≠ 0 := by
        have := hne 0 (by omega)
        rwa [h0] at this
      rw [if_neg hr, ih (n := n) (by omega) (fun k hk => by rw [e]; exact hne _ (by omega)) (by rw [e]; exact hz),
        List.range_succ_eq_map, List.map_cons, List.map_map, h0]
      simp only [Option.map_some, e, Function.comp_def, Nat.succ_eq_add_one]

/-- The loop of PUTS over a memory without a zero word (R173). -/
theorem scanString_eq_none {m : Memory} (h : ∀ a : Word, m.read a ≠ 0) (n : Nat) (a : Word) :
    scanString n m a = none := by
  induction n generalizing a with
  | zero => rfl
  | succ n ih => rw [scanString_succ, if_neg (h a), ih]; rfl

/-- The dispatch of R170, vector by vector. -/
theorem trapDispatch_cases (vec : BitVec 8) :
    (vec = 0x20 ∧ trapDispatch vec s = trapGetc s) ∨ (vec = 0x21 ∧ trapDispatch vec s = trapPutc s) ∨
    (vec = 0x22 ∧ trapDispatch vec s = trapPuts s) ∨ (vec = 0x25 ∧ trapDispatch vec s = trapHalt s) ∨
    (vec = 0x26 ∧ trapDispatch vec s = trapInu16 s) ∨ (vec = 0x27 ∧ trapDispatch vec s = trapOutu16 s) ∨
    (vec ≠ 0x20 ∧ vec ≠ 0x21 ∧ vec ≠ 0x22 ∧ vec ≠ 0x25 ∧ vec ≠ 0x26 ∧ vec ≠ 0x27 ∧
      trapDispatch vec s = trapReserved vec s) := by
  by_cases h0 : vec = 0x20
  · subst h0; exact .inl ⟨rfl, rfl⟩
  by_cases h1 : vec = 0x21
  · subst h1; exact .inr (.inl ⟨rfl, rfl⟩)
  by_cases h2 : vec = 0x22
  · subst h2; exact .inr (.inr (.inl ⟨rfl, rfl⟩))
  by_cases h5 : vec = 0x25
  · subst h5; exact .inr (.inr (.inr (.inl ⟨rfl, rfl⟩)))
  by_cases h6 : vec = 0x26
  · subst h6; exact .inr (.inr (.inr (.inr (.inl ⟨rfl, rfl⟩))))
  by_cases h7 : vec = 0x27
  · subst h7; exact .inr (.inr (.inr (.inr (.inr (.inl ⟨rfl, rfl⟩)))))
  refine .inr (.inr (.inr (.inr (.inr (.inr ⟨h0, h1, h2, h5, h6, h7, ?_⟩)))))
  have key : ∀ n : Nat, vec.toNat = n → ∀ b : BitVec 8, b.toNat = n → vec = b := fun n h b hb =>
    BitVec.eq_of_toNat_eq (h.trans hb.symm)
  unfold trapDispatch
  split
  · exact absurd (key _ ‹_› 0x20 rfl) h0
  · exact absurd (key _ ‹_› 0x21 rfl) h1
  · exact absurd (key _ ‹_› 0x22 rfl) h2
  · rfl
  · rfl
  · exact absurd (key _ ‹_› 0x25 rfl) h5
  · exact absurd (key _ ‹_› 0x26 rfl) h6
  · exact absurd (key _ ‹_› 0x27 rfl) h7
  · rfl

/-! The fields each routine leaves alone. -/

@[simp] theorem trapGetc_pc : (trapGetc s).pc = s.pc := by
  obtain ⟨-, h⟩ | ⟨_, _, -, h⟩ := trapGetc_cases s <;> rw [h] <;> rfl
@[simp] theorem trapGetc_cond : (trapGetc s).cond = s.cond := by
  obtain ⟨-, h⟩ | ⟨_, _, -, h⟩ := trapGetc_cases s <;> rw [h] <;> rfl
@[simp] theorem trapGetc_mem : (trapGetc s).mem = s.mem := by
  obtain ⟨-, h⟩ | ⟨_, _, -, h⟩ := trapGetc_cases s <;> rw [h] <;> rfl
@[simp] theorem trapGetc_run : (trapGetc s).run = s.run := by
  obtain ⟨-, h⟩ | ⟨_, _, -, h⟩ := trapGetc_cases s <;> rw [h] <;> rfl
@[simp] theorem trapGetc_halted : (trapGetc s).halted = s.halted := by
  obtain ⟨-, h⟩ | ⟨_, _, -, h⟩ := trapGetc_cases s <;> rw [h] <;> rfl
@[simp] theorem trapGetc_out : (trapGetc s).out = s.out := by
  obtain ⟨-, h⟩ | ⟨_, _, -, h⟩ := trapGetc_cases s <;> rw [h] <;> rfl
@[simp] theorem trapGetc_observer : (trapGetc s).observer = s.observer := by
  obtain ⟨-, h⟩ | ⟨_, _, -, h⟩ := trapGetc_cases s <;> rw [h] <;> rfl
@[simp] theorem trapGetc_lineAnswers : (trapGetc s).lineAnswers = s.lineAnswers := by
  obtain ⟨-, h⟩ | ⟨_, _, -, h⟩ := trapGetc_cases s <;> rw [h] <;> rfl

@[simp] theorem trapInu16_pc : (trapInu16 s).pc = s.pc := by
  obtain ⟨-, h⟩ | ⟨_, _, -, h⟩ | ⟨_, -, h⟩ := trapInu16_cases s <;> rw [h] <;> rfl
@[simp] theorem trapInu16_cond : (trapInu16 s).cond = s.cond := by
  obtain ⟨-, h⟩ | ⟨_, _, -, h⟩ | ⟨_, -, h⟩ := trapInu16_cases s <;> rw [h] <;> rfl
@[simp] theorem trapInu16_mem : (trapInu16 s).mem = s.mem := by
  obtain ⟨-, h⟩ | ⟨_, _, -, h⟩ | ⟨_, -, h⟩ := trapInu16_cases s <;> rw [h] <;> rfl
@[simp] theorem trapInu16_run : (trapInu16 s).run = s.run := by
  obtain ⟨-, h⟩ | ⟨_, _, -, h⟩ | ⟨_, -, h⟩ := trapInu16_cases s <;> rw [h] <;> rfl
@[simp] theorem trapInu16_halted : (trapInu16 s).halted = s.halted := by
  obtain ⟨-, h⟩ | ⟨_, _, -, h⟩ | ⟨_, -, h⟩ := trapInu16_cases s <;> rw [h] <;> rfl
@[simp] theorem trapInu16_out : (trapInu16 s).out = s.out := by
  obtain ⟨-, h⟩ | ⟨_, _, -, h⟩ | ⟨_, -, h⟩ := trapInu16_cases s <;> rw [h] <;> rfl
@[simp] theorem trapInu16_byteAnswers : (trapInu16 s).byteAnswers = s.byteAnswers := by
  obtain ⟨-, h⟩ | ⟨_, _, -, h⟩ | ⟨_, -, h⟩ := trapInu16_cases s <;> rw [h] <;> rfl

@[simp] theorem trapPuts_regs : (trapPuts s).regs = s.regs := by
  obtain ⟨-, h⟩ | ⟨_, -, h⟩ := trapPuts_cases s <;> rw [h] <;> rfl
@[simp] theorem trapPuts_pc : (trapPuts s).pc = s.pc := by
  obtain ⟨-, h⟩ | ⟨_, -, h⟩ := trapPuts_cases s <;> rw [h] <;> rfl
@[simp] theorem trapPuts_cond : (trapPuts s).cond = s.cond := by
  obtain ⟨-, h⟩ | ⟨_, -, h⟩ := trapPuts_cases s <;> rw [h] <;> rfl
@[simp] theorem trapPuts_mem : (trapPuts s).mem = s.mem := by
  obtain ⟨-, h⟩ | ⟨_, -, h⟩ := trapPuts_cases s <;> rw [h] <;> rfl
@[simp] theorem trapPuts_run : (trapPuts s).run = s.run := by
  obtain ⟨-, h⟩ | ⟨_, -, h⟩ := trapPuts_cases s <;> rw [h] <;> rfl
@[simp] theorem trapPuts_halted : (trapPuts s).halted = s.halted := by
  obtain ⟨-, h⟩ | ⟨_, -, h⟩ := trapPuts_cases s <;> rw [h] <;> rfl
@[simp] theorem trapPuts_observer : (trapPuts s).observer = s.observer := by
  obtain ⟨-, h⟩ | ⟨_, -, h⟩ := trapPuts_cases s <;> rw [h] <;> rfl
@[simp] theorem trapPuts_byteAnswers : (trapPuts s).byteAnswers = s.byteAnswers := by
  obtain ⟨-, h⟩ | ⟨_, -, h⟩ := trapPuts_cases s <;> rw [h] <;> rfl
@[simp] theorem trapPuts_lineAnswers : (trapPuts s).lineAnswers = s.lineAnswers := by
  obtain ⟨-, h⟩ | ⟨_, -, h⟩ := trapPuts_cases s <;> rw [h] <;> rfl

/-! What the routines do not look at: GETC and INU16 not at the memory, none at what was sent to the observer. -/

theorem trapGetc_withMem (m : Memory) : trapGetc { s with mem := m } = { trapGetc s with mem := m } := by
  obtain ⟨h1, h⟩ | ⟨b, rest, h1, h⟩ := trapGetc_cases s <;> rw [h]
  · exact trapGetc_hold { s with mem := m } h1
  · exact trapGetc_take { s with mem := m } h1

theorem trapInu16_withMem (m : Memory) : trapInu16 { s with mem := m } = { trapInu16 s with mem := m } := by
  obtain ⟨h1, h⟩ | ⟨v, rest, h1, h⟩ | ⟨rest, h1, h⟩ := trapInu16_cases s <;> rw [h]
  · exact trapInu16_hold { s with mem := m } h1
  · exact trapInu16_some { s with mem := m } h1
  · exact trapInu16_none { s with mem := m } h1

theorem trapGetc_withObserver (l : List ObsRecord) :
    trapGetc { s with observer := l } = { trapGetc s with observer := l } := by
  obtain ⟨h1, h⟩ | ⟨b, rest, h1, h⟩ := trapGetc_cases s <;> rw [h]
  · exact trapGetc_hold { s with observer := l } h1
  · exact trapGetc_take { s with observer := l } h1

theorem trapPuts_withObserver (l : List ObsRecord) :
    trapPuts { s with observer := l } = { trapPuts s with observer := l } := by
  obtain ⟨h1, h⟩ | ⟨ws, h1, h⟩ := trapPuts_cases s <;> rw [h]
  · exact trapPuts_none { s with observer := l } h1
  · exact trapPuts_some { s with observer := l } h1

/-- INU16 sends the observer the same records whatever it received before. -/
theorem trapInu16_withObserver (l : List ObsRecord) : ∃ rs, (trapInu16 s).observer = s.observer ++ rs ∧
    trapInu16 { s with observer := l } = { trapInu16 s with observer := l ++ rs } := by
  obtain ⟨h1, h⟩ | ⟨v, rest, h1, h⟩ | ⟨rest, h1, h⟩ := trapInu16_cases s <;> simp only [h]
  · exact ⟨[], (List.append_nil _).symm, by rw [List.append_nil]; exact trapInu16_hold { s with observer := l } h1⟩
  · exact ⟨[], (List.append_nil _).symm, by rw [List.append_nil]; exact trapInu16_some { s with observer := l } h1⟩
  · exact ⟨[.log .hexParseFailure], rfl, trapInu16_none { s with observer := l } h1⟩

end Sys2Proof.Machine
end

