-- ==== Sys2Proof/Laws/Step.lean ====
section
/-! SUPPORT. What `exec` and `step` can do, said once; every invariant is derived from these. -/

namespace Sys2Proof.Machine

/-- What an instruction can do, by the group of handlers it belongs to (40_fetch_decode_dispatch.md R94). -/
theorem exec_cases {i : Instr} {s t : State} (h : exec i s = .next t) :
    (∃ dr v, flagDest i = some dr ∧ t = s.writeDest dr v) ∨
    (flagDest i = none ∧ (i.handler = .st ∨ i.handler = .sti ∨ i.handler = .str) ∧ ∃ a v, t = s.writeMem a v) ∨
    (flagDest i = none ∧ (i.handler = .br ∨ i.handler = .jmp) ∧ (t = s ∨ ∃ v, t = s.setPc v)) ∨
    (flagDest i = none ∧ i.handler = .jsr ∧ ∃ v, t = s.link.setPc v) ∨
    (flagDest i = none ∧ (i.handler = .rti ∨ i.handler = .res) ∧ t = s.logEvent (.unimplementedOpcode (opcodeOf i.handler))) ∨
    (flagDest i = none ∧ i.handler = .trap ∧ ∃ vec, trapVector i = some vec ∧ t = trapDispatch vec s) := by
  cases i with
  | br nzp off =>
    refine .inr (.inr (.inl ⟨rfl, .inl rfl, ?_⟩))
    injection h with h
    subst h
    by_cases hb : branchTaken s.cond nzp
    · exact .inr ⟨_, if_pos hb⟩
    · exact .inl (if_neg hb)
  | jmp base => injection h with h; exact .inr (.inr (.inl ⟨rfl, .inr rfl, .inr ⟨_, h.symm⟩⟩))
  | jsr off => injection h with h; exact .inr (.inr (.inr (.inl ⟨rfl, rfl, _, h.symm⟩)))
  | jsrr base => injection h with h; exact .inr (.inr (.inr (.inl ⟨rfl, rfl, _, h.symm⟩)))
  | st sr off => injection h with h; exact .inr (.inl ⟨rfl, .inl rfl, _, _, h.symm⟩)
  | sti sr off => injection h with h; exact .inr (.inl ⟨rfl, .inr (.inl rfl), _, _, h.symm⟩)
  | str sr base off => injection h with h; exact .inr (.inl ⟨rfl, .inr (.inr rfl), _, _, h.symm⟩)
  | rti => injection h with h; exact .inr (.inr (.inr (.inr (.inl ⟨rfl, .inl rfl, h.symm⟩))))
  | res => injection h with h; exact .inr (.inr (.inr (.inr (.inl ⟨rfl, .inr rfl, h.symm⟩))))
  | addReg dr sr1 sr2 => injection h with h; exact .inl ⟨_, _, rfl, h.symm⟩
  | addImm dr sr1 imm => injection h with h; exact .inl ⟨_, _, rfl, h.symm⟩
  | andReg dr sr1 sr2 => injection h with h; exact .inl ⟨_, _, rfl, h.symm⟩
  | andImm dr sr1 imm => injection h with h; exact .inl ⟨_, _, rfl, h.symm⟩
  | not dr sr1 => injection h with h; exact .inl ⟨_, _, rfl, h.symm⟩
  | ld dr off => injection h with h; exact .inl ⟨_, _, rfl, h.symm⟩
  | ldi dr off => injection h with h; exact .inl ⟨_, _, rfl, h.symm⟩
  | ldr dr base off => injection h with h; exact .inl ⟨_, _, rfl, h.symm⟩
  | lea dr off => injection h with h; exact .inl ⟨_, _, rfl, h.symm⟩
  | trap vec => injection h with h; exact .inr (.inr (.inr (.inr (.inr ⟨rfl, rfl, _, rfl, h.symm⟩))))
  | getc => injection h with h; exact .inr (.inr (.inr (.inr (.inr ⟨rfl, rfl, _, rfl, h.symm⟩))))
  | putc => injection h with h; exact .inr (.inr (.inr (.inr (.inr ⟨rfl, rfl, _, rfl, h.symm⟩))))
  | puts => injection h with h; exact .inr (.inr (.inr (.inr (.inr ⟨rfl, rfl, _, rfl, h.symm⟩))))
  | inTrap => injection h with h; exact .inr (.inr (.inr (.inr (.inr ⟨rfl, rfl, _, rfl, h.symm⟩))))
  | putsp => injection h with h; exact .inr (.inr (.inr (.inr (.inr ⟨rfl, rfl, _, rfl, h.symm⟩))))
  | halt => injection h with h; exact .inr (.inr (.inr (.inr (.inr ⟨rfl, rfl, _, rfl, h.symm⟩))))
  | inu16 => injection h with h; exact .inr (.inr (.inr (.inr (.inr ⟨rfl, rfl, _, rfl, h.symm⟩))))
  | outu16 => injection h with h; exact .inr (.inr (.inr (.inr (.inr ⟨rfl, rfl, _, rfl, h.symm⟩))))

/-- The outcome of an instruction of the TRAP opcode is that of the dispatch on its vector (44_trap.md R170). -/
theorem exec_of_trapVector {i : Instr} {vec : BitVec 8} (s : State) (h : trapVector i = some vec) :
    exec i s = .next (trapDispatch vec s) := by
  cases i <;> first | (injection h with h; subst h; rfl) | cases h

/-- A step of a machine that does not run (R96). -/
theorem step_idle {s : State} (h : s.run = false) : step s = .next s := by simp [step, h]

/-- A step that takes up one that has not completed (44_trap.md R182). -/
theorem step_resume {s : State} {p : Pending} (h : s.run = true) (hp : s.pending = some p) :
    step s = .next (resume p s) := by simp [step, h, hp]

/-- A step that begins with a fetch (R90). -/
theorem step_fetch {s : State} (h : s.run = true) (hp : s.pending = none) :
    step s = exec (decode (fetchWord s)) s.afterFetch := by simp [step, h, hp]

/-- What a step can do. -/
theorem step_cases {s t : State} (h : step s = .next t) :
    (s.run = false ∧ t = s) ∨
    (s.run = true ∧ ∃ p, s.pending = some p ∧ t = resume p s) ∨
    (s.run = true ∧ s.pending = none ∧ exec (decode (fetchWord s)) s.afterFetch = .next t) := by
  cases hr : s.run with
  | false => rw [step_idle hr] at h; injection h with h; exact .inl ⟨rfl, h.symm⟩
  | true =>
    cases hp : s.pending with
    | none => rw [step_fetch hr hp] at h; exact .inr (.inr ⟨rfl, rfl, h⟩)
    | some p =>
      rw [step_resume hr hp] at h
      injection h with h
      exact .inr (.inl ⟨rfl, p, rfl, h.symm⟩)

/-- Taking a step up again changes neither PC, COND, memory, RUN nor the halted mark. -/
theorem resume_keeps (p : Pending) (s : State) :
    (resume p s).pc = s.pc ∧ (resume p s).cond = s.cond ∧ (resume p s).mem = s.mem ∧
    (resume p s).run = s.run ∧ (resume p s).halted = s.halted := by
  cases p <;> simp [resume]

end Sys2Proof.Machine
end

