-- ==== Sys2Proof/Laws/Transactions.lean ====
section
/-! SUPPORT. The small lemmas of the transactions of an instruction (20_memory.md R42, R51). -/

namespace Sys2Proof.Machine

/-- One turn of the reads of PUTS (R51, R55). -/
theorem scanReads_succ (n : Nat) (m : Memory) (a : Word) :
    scanReads (n + 1) m a = a :: (if m.read a = 0 then [] else scanReads n m (a + 1)) := rfl

/-- PUTS reads one word more than it sends. -/
theorem length_scanReads {n : Nat} {m : Memory} {a : Word} {ws : List Word} (h : scanString n m a = some ws) :
    (scanReads n m a).length = ws.length + 1 := by
  induction n generalizing a ws with
  | zero => cases h
  | succ n ih =>
    rw [scanString_succ] at h
    rw [scanReads_succ]
    split at h
    · rename_i h0
      injection h with h
      subst h
      rw [if_pos h0]
      rfl
    · rename_i h0
      obtain ⟨ws', h', rfl⟩ := Option.map_eq_some_iff.mp h
      rw [if_neg h0]
      exact congrArg (· + 1) (ih h')

/-- The loop of PUTS sees no word but those it reads. -/
theorem scanString_congr_reads {n : Nat} {m m' : Memory} {a : Word}
    (h : ∀ b ∈ scanReads n m a, m'.read b = m.read b) : scanString n m' a = scanString n m a := by
  induction n generalizing a with
  | zero => rfl
  | succ n ih =>
    rw [scanReads_succ] at h
    rw [scanString_succ, scanString_succ, h a List.mem_cons_self]
    split
    · rfl
    · rename_i h0
      rw [if_neg h0] at h
      rw [ih fun b hb => h b (List.mem_cons_of_mem _ hb)]

/-- TRAP writes no memory (44_trap.md R180). -/
theorem trap_writes_nothing (i : Instr) (s : State) (h : i.handler = .trap) :
    (transactions i s).countP Transaction.isWrite = 0 := by
  have hg : (getcTransactions s).countP Transaction.isWrite = 0 := by unfold getcTransactions; split <;> rfl
  have hi : (inu16Transactions s).countP Transaction.isWrite = 0 := by unfold inu16Transactions; split <;> rfl
  have hp : (putsTransactions s).countP Transaction.isWrite = 0 := by
    unfold putsTransactions
    rw [List.countP_append, List.countP_map]
    simp only [Function.comp_def, Transaction.isWrite, List.countP_false]
    split <;> rfl
  have ht : ∀ vec, (trapTransactions vec s).countP Transaction.isWrite = 0 := by
    intro vec
    unfold trapTransactions
    split <;> first | assumption | rfl
  cases i <;> first | exact ht _ | exact hg | exact hi | exact hp | rfl | cases h

/-- Transactions without a write leave the memory. -/
theorem replayWrites_of_no_write {ts : List Transaction} (h : ts.countP Transaction.isWrite = 0) (m : Memory) :
    replayWrites m ts = m := by
  induction ts generalizing m with
  | nil => rfl
  | cons t ts ih =>
    have h' : ts.countP Transaction.isWrite = 0 := by rw [List.countP_cons] at h; omega
    cases t with
    | memWrite => simp [List.countP_cons, Transaction.isWrite] at h
    | memRead => exact ih h' m
    | consoleInByte => exact ih h' m
    | consoleInHexLine => exact ih h' m
    | consoleOut => exact ih h' m

/-- The writes of some transactions leave every address that is not written. -/
theorem read_replayWrites {ts : List Transaction} {a : Word} (h : ∀ v : Word, Transaction.memWrite a v ∉ ts)
    (m : Memory) : (replayWrites m ts).read a = m.read a := by
  induction ts generalizing m with
  | nil => rfl
  | cons t ts ih =>
    have h' : ∀ v : Word, Transaction.memWrite a v ∉ ts := fun v hv => h v (List.mem_cons_of_mem _ hv)
    cases t with
    | memWrite b v =>
      refine (ih h' _).trans (Memory.read_write_other m v ?_)
      rintro rfl
      exact h v List.mem_cons_self
    | memRead => exact ih h' m
    | consoleInByte => exact ih h' m
    | consoleInHexLine => exact ih h' m
    | consoleOut => exact ih h' m

end Sys2Proof.Machine
end

