-- ==== Sys2Proof/Tests/Slice0.lean ====
section
/-! SUPPORT. The model's own tests. Every expected value is written from spec/: words from the encodings of
30_encoding.md R67, effects from the vectors of 95_test_vectors.md (the name of the vector stands beside the test).
After them, the witnesses: for each statement with hypotheses a state and operands that meet them. -/

open Sys2Proof Sys2Proof.Machine

namespace Sys2Proof.Tests

/-- Whether an outcome is a next state with a property. -/
def holds (o : Host.Outcome State Fault Refusal) (p : State → Bool) : Bool :=
  match o with
  | .next t => p t
  | .fault _ => false
  | .refused _ => false

/-- A running machine with a word at an address and the PC there. -/
def at_ (addr word : Word) (s : State := State.reset) : State :=
  { s.writeMem addr word with pc := addr, run := true }

/-- One step of such a machine, looked at by a property. -/
def runs (addr word : Word) (s : State) (p : State → Bool) : Bool := holds (step (at_ addr word s)) p

/-- The reset state with a register set. -/
def withR (r : Reg) (v : Word) (s : State := State.reset) : State := s.writeReg r v

/-! ## WellFormed -/

theorem test_wellFormed_accepts : Instr.wellFormed (.trap 0x1F) = true ∧ Instr.wellFormed (.trap 0x28) = true ∧
    Instr.wellFormed (.trap 0x00) = true ∧ Instr.wellFormed (.trap 0xFF) = true ∧
    Instr.wellFormed (.addImm .r7 .r7 0x1F) = true := by decide
/-- Ill-formed: a vector with a row of its own written as the generic TRAP. -/
theorem test_wellFormed_refuses_named_vectors : Instr.wellFormed (.trap 0x20) = false ∧
    Instr.wellFormed (.trap 0x21) = false ∧ Instr.wellFormed (.trap 0x22) = false ∧
    Instr.wellFormed (.trap 0x23) = false ∧ Instr.wellFormed (.trap 0x24) = false ∧
    Instr.wellFormed (.trap 0x25) = false ∧ Instr.wellFormed (.trap 0x26) = false ∧
    Instr.wellFormed (.trap 0x27) = false := by decide

/-! ## Decoding: words written out from R67, every constructor -/

theorem test_decode_br : decode 0b0000001111111101 = .br 0b001 0b111111101 ∧ decode 0x0000 = .br 0b000 0 := by decide
theorem test_decode_add : decode 0b0001010001011001 = .addReg .r2 .r1 .r1 ∧
    decode 0b0001010001000001 = .addReg .r2 .r1 .r1 ∧ decode 0b0001000000100001 = .addImm .r0 .r0 0b00001 := by decide
theorem test_decode_and : decode 0b0101010000000001 = .andReg .r2 .r0 .r1 ∧
    decode 0b0101001001110000 = .andImm .r1 .r1 0b10000 := by decide
theorem test_decode_not : decode 0b1001011010111111 = .not .r3 .r2 ∧ decode 0b1001000000000000 = .not .r0 .r0 := by decide
theorem test_decode_loads : decode 0b0010101000000100 = .ld .r5 0b000000100 ∧
    decode 0b1010100000001001 = .ldi .r4 0b000001001 ∧ decode 0b0110010001000000 = .ldr .r2 .r1 0b000000 ∧
    decode 0b1110001000001011 = .lea .r1 0b000001011 := by decide
theorem test_decode_stores : decode 0b0011000100000000 = .st .r0 0b100000000 ∧
    decode 0b1011100000001000 = .sti .r4 0b000001000 ∧ decode 0b0111011001000001 = .str .r3 .r1 0b000001 := by decide
theorem test_decode_jumps : decode 0b1100000111000000 = .jmp .r7 ∧ decode 0b1100111010111111 = .jmp .r2 ∧
    decode 0b0100100000010000 = .jsr 0b00000010000 ∧ decode 0b0100000010000000 = .jsrr .r2 ∧
    decode 0b0100011011111111 = .jsrr .r3 := by decide
theorem test_decode_noops : decode 0b1000111111111111 = .rti ∧ decode 0b1101000100100011 = .res := by decide
theorem test_decode_traps : decode 0b1111000000100000 = .getc ∧ decode 0b1111101000100001 = .putc ∧
    decode 0b1111000000100010 = .puts ∧ decode 0b1111000000100011 = .inTrap ∧ decode 0b1111000000100100 = .putsp ∧
    decode 0b1111111100100101 = .halt ∧ decode 0b1111000000100110 = .inu16 ∧ decode 0b1111000000100111 = .outu16 ∧
    decode 0b1111000000011111 = .trap 0x1F ∧ decode 0b1111000000101000 = .trap 0x28 := by decide
/-- The canonical words of 30_encoding.md R68, R73 and 95_test_vectors.md. -/
theorem test_encode : encode (.addImm .r0 .r0 1) = 0x1021 ∧ encode .halt = 0xF025 ∧ encode (.not .r3 .r2) = 0x96BF ∧
    encode (.jmp .r7) = 0xC1C0 ∧ encode (.jsr 0x010) = 0x4810 ∧ encode (.jsrr .r2) = 0x4080 ∧
    encode (.str .r3 .r1 1) = 0x7641 ∧ encode (.br 0b001 0x1FD) = 0x03FD ∧ encode .rti = 0x8000 ∧
    encode .res = 0xD000 := by decide
theorem test_decodeTableWord : decodeTableWord 16 0x1021 = some (.addImm .r0 .r0 1) ∧
    decodeTableWord 16 0xF025 = some .halt ∧ decodeTableWord 32 0x1021 = none := by decide

/-! ## Operand functions: V-SEXT, V-FLAGS, the wrap of R118 -/

theorem test_sext : sext (0x10 : BitVec 5) = 0xFFF0 ∧ sext (0x0F : BitVec 5) = 0x000F ∧
    sext (0x20 : BitVec 6) = 0xFFE0 ∧ sext (0x1FF : BitVec 9) = 0xFFFF ∧ sext (0x0FF : BitVec 9) = 0x00FF ∧
    sext (0x400 : BitVec 11) = 0xFC00 ∧ sext (0x3FF : BitVec 11) = 0x03FF := by decide
theorem test_flags : flagsOf 0x0000 = 0b010 ∧ flagsOf 0x0001 = 0b001 ∧ flagsOf 0x7FFF = 0b001 ∧
    flagsOf 0x8000 = 0b100 ∧ flagsOf 0xFFFF = 0b100 := by decide

/-! ## One step of each instruction -/

/-- V-ADD-1 (source scenario S7), V-ADD-2. -/
theorem test_addImm : runs 0x3000 0x1021 State.reset
      (fun t => t.readReg .r0 == 0x0001 && t.cond == 0b001 && t.pc == 0x3001) = true ∧
    runs 0x3000 0x1021 (withR .r0 0xFFFF) (fun t => t.readReg .r0 == 0x0000 && t.cond == 0b010) = true := by decide
/-- V-ADD-3. -/
theorem test_addImm_negative : runs 0x3000 0x127F State.reset
    (fun t => t.readReg .r1 == 0xFFFF && t.cond == 0b100) = true := by decide
/-- V-ADD-8, V-ADD-6. -/
theorem test_addReg : runs 0x3000 0x1001 (withR .r0 0x8000 (withR .r1 0xFFFF))
      (fun t => t.readReg .r0 == 0x7FFF && t.cond == 0b001) = true ∧
    runs 0x3000 0x1241 (withR .r1 0x4000) (fun t => t.readReg .r1 == 0x8000 && t.cond == 0b100) = true := by decide
/-- V-AND-2, V-AND-1. -/
theorem test_andImm : runs 0x3000 0x5270 (withR .r1 0xABCD)
      (fun t => t.readReg .r1 == 0xABC0 && t.cond == 0b100) = true ∧
    runs 0x3000 0x5020 (withR .r0 0x1234) (fun t => t.readReg .r0 == 0 && t.cond == 0b010) = true := by decide
/-- V-AND-5. -/
theorem test_andReg : runs 0x3000 0x5401 (withR .r0 0xF0F0 (withR .r1 0x8FF0))
    (fun t => t.readReg .r2 == 0x80F0 && t.cond == 0b100) = true := by decide
/-- V-NOT-3, V-NOT-4. -/
theorem test_not : runs 0x3000 0x9000 (withR .r0 0x8000) (fun t => t.readReg .r0 == 0x7FFF && t.cond == 0b001) = true ∧
    runs 0x3000 0x96BF (withR .r2 0x00FF) (fun t => t.readReg .r3 == 0xFF00 && t.cond == 0b100) = true := by decide
/-- V-LD-2, V-LD-1. -/
theorem test_ld : runs 0xFFFF 0x20FF (State.reset.writeMem 0x00FF 0x8000)
      (fun t => t.pc == 0x0000 && t.readReg .r0 == 0x8000 && t.cond == 0b100) = true ∧
    runs 0x3000 0x21FF State.reset (fun t => t.readReg .r0 == 0x21FF && t.cond == 0b001) = true := by decide
/-- V-LDI-1 (source scenario S10), V-LDI-3. -/
theorem test_ldi : runs 0x3004 0xA809 ((State.reset.writeMem 0x300E 0x300C).writeMem 0x300C 0x00FF)
      (fun t => t.readReg .r4 == 0x00FF && t.cond == 0b001) = true ∧
    runs 0x3000 0xA1FF State.reset (fun t => t.readReg .r0 == 0x0000 && t.cond == 0b010) = true := by decide
/-- V-LDR-3, V-LDR-4. -/
theorem test_ldr : runs 0x3000 0x607F (State.reset.writeMem 0xFFFF 0x1234)
      (fun t => t.readReg .r0 == 0x1234 && t.cond == 0b001) = true ∧
    runs 0x3000 0x6041 (withR .r1 0xFFFF (State.reset.writeMem 0x0000 0x9999))
      (fun t => t.readReg .r0 == 0x9999 && t.cond == 0b100) = true := by decide
/-- V-LEA-3, V-LEA-4. -/
theorem test_lea : runs 0x7FFF 0xE000 State.reset (fun t => t.readReg .r0 == 0x8000 && t.cond == 0b100) = true ∧
    runs 0xFFFF 0xE000 (withR .r0 0x1111) (fun t => t.readReg .r0 == 0 && t.cond == 0b010 && t.pc == 0) = true := by
  decide
/-- V-ST-1, V-ST-3 (overwrites itself; the zero is not listed, log 1). -/
theorem test_st : runs 0x3000 0x3100 (withR .r0 0xABCD)
      (fun t => t.readMem 0x2F01 == 0xABCD && t.cond == 0b000 && t.pc == 0x3001) = true ∧
    runs 0x3000 0x31FF State.reset (fun t => t.readMem 0x3000 == 0 && t.mem == [] && t.pc == 0x3001) = true := by decide
/-- V-STI-1, V-STI-2. -/
theorem test_sti : runs 0x3006 0xB808 (withR .r4 0x0100 (State.reset.writeMem 0x300F 0x3010))
      (fun t => t.readMem 0x3010 == 0x0100 && t.readMem 0x300F == 0x3010) = true ∧
    runs 0x3000 0xB000 (withR .r0 0x5555 (State.reset.writeMem 0x3001 0x3001))
      (fun t => t.readMem 0x3001 == 0x5555) = true := by decide
/-- V-STR-2, V-STR-3. -/
theorem test_str : runs 0x3000 0x7060 (withR .r0 0xAAAA (withR .r1 0x0010))
      (fun t => t.readMem 0xFFF0 == 0xAAAA) = true ∧
    runs 0x3000 0x7240 (withR .r1 0x4000) (fun t => t.readMem 0x4000 == 0x4000) = true := by decide
/-- V-BR-1, V-BR-2, V-BR-7. -/
theorem test_br : runs 0x3005 0x03FD { State.reset with cond := 0b001 } (fun t => t.pc == 0x3003) = true ∧
    runs 0x3005 0x03FD { State.reset with cond := 0b010 } (fun t => t.pc == 0x3006) = true ∧
    runs 0xFFF0 0x08FF { State.reset with cond := 0b100 } (fun t => t.pc == 0x00F0) = true := by decide
/-- V-BR-4: not taken with the reset value of COND. -/
theorem test_br_after_reset : runs 0x3000 0x0FFF State.reset (fun t => t.pc == 0x3001) = true := by decide
/-- V-JMP-1, V-JMP-3. -/
theorem test_jmp : runs 0x3000 0xC1C0 (withR .r7 0x3002) (fun t => t.pc == 0x3002) = true ∧
    runs 0x3000 0xCEBF (withR .r2 0x1234) (fun t => t.pc == 0x1234) = true := by decide
/-- V-JSR-1, V-JSR-3, V-JSR-5. -/
theorem test_jsr : runs 0x3004 0x4810 State.reset (fun t => t.readReg .r7 == 0x3005 && t.pc == 0x0010) = true ∧
    runs 0x3000 0x4C00 State.reset (fun t => t.readReg .r7 == 0x3001 && t.pc == 0xFC00) = true ∧
    runs 0xFFFF 0x4800 State.reset (fun t => t.readReg .r7 == 0x0000 && t.pc == 0x0000) = true := by decide
/-- V-JSR-6, V-JSR-7. -/
theorem test_jsrr : runs 0x3001 0x4080 (withR .r2 0x3006) (fun t => t.readReg .r7 == 0x3002 && t.pc == 0x3006) = true ∧
    runs 0x3000 0x41C0 (withR .r7 0x4000) (fun t => t.readReg .r7 == 0x3001 && t.pc == 0x3001) = true := by decide
/-- V-NOP-1, V-NOP-4. -/
theorem test_rti_res : runs 0x3009 0x8000 State.reset
      (fun t => t.pc == 0x300A && t.observer.getLast? == some (.log (.unimplementedOpcode 0x8))) = true ∧
    runs 0x300A 0xD123 State.reset
      (fun t => t.pc == 0x300B && t.observer.getLast? == some (.log (.unimplementedOpcode 0xD))) = true := by decide
/-- V-TR-1. -/
theorem test_getc : runs 0x3000 0xF020 { withR .r0 0xFFFF with cond := 0b100, byteAnswers := [0x41] }
    (fun t => t.readReg .r0 == 0x0041 && t.cond == 0b100 && t.byteAnswers == [] && t.pending == none) = true := by
  decide
/-- V-TR-3. -/
theorem test_getc_holds : runs 0x3000 0xF020 State.reset
    (fun t => t.pc == 0x3001 && t.pending == some .inByte && t.regs == Regs.zero) = true := by decide
/-- V-TR-4, V-TR-20. -/
theorem test_putc : runs 0x3000 0xF021 (withR .r0 0x0141) (fun t => t.out == [.outByte 0x41]) = true ∧
    runs 0x3000 0xFA21 (withR .r0 0x0021) (fun t => t.out == [.outByte 0x21]) = true := by decide
/-- V-TR-7: the address wraps. -/
theorem test_puts : runs 0x3000 0xF022 (withR .r0 0xFFFF ((State.reset.writeMem 0xFFFF 0x0041).writeMem 0x0000 0x0042))
    (fun t => t.out == [.outString [0x0041, 0x0042]] && t.readReg .r0 == 0xFFFF) = true := by decide
/-- V-TR-6: the empty string. -/
theorem test_puts_empty : runs 0x3000 0xF022 (withR .r0 0x4000) (fun t => t.out == [.outString []]) = true := by decide
/-- V-TR-9, V-TR-10. -/
theorem test_in_putsp : runs 0x3007 0xF023 { State.reset with byteAnswers := [0x41] }
      (fun t => t.pc == 0x3008 && t.byteAnswers == [0x41] &&
        t.observer.getLast? == some (.log (.reservedTrap 0x23))) = true ∧
    runs 0x3000 0xF024 State.reset
      (fun t => t.out == [] && t.observer.getLast? == some (.log (.reservedTrap 0x24))) = true := by decide
/-- V-TR-11, V-TR-12. -/
theorem test_halt : runs 0x3000 0xF025 (withR .r7 0x1111)
      (fun t => t.run == false && t.pc == 0x3001 && t.readReg .r7 == 0x1111 && t.cond == 0b000) = true ∧
    runs 0x3000 0xFF25 State.reset (fun t => t.run == false && t.pc == 0x3001) = true := by decide
/-- V-TR-13, V-TR-14. -/
theorem test_inu16 : runs 0x3000 0xF026 { withR .r0 0x0041 with lineAnswers := [some 0xBEEF] }
      (fun t => t.readReg .r0 == 0xBEEF && t.cond == 0b000) = true ∧
    runs 0x3000 0xF026 { withR .r0 0x0041 with lineAnswers := [none] }
      (fun t => t.readReg .r0 == 0x0041 && t.observer.getLast? == some (.log .hexParseFailure)) = true := by decide
/-- V-TR-15. -/
theorem test_outu16 : runs 0x3000 0xF027 (withR .r0 0x0041) (fun t => t.out == [.outHex 0x0041]) = true := by decide
/-- V-TR-16, V-TR-18. -/
theorem test_trap_reserved : runs 0x3000 0xF000 State.reset
      (fun t => t.observer.getLast? == some (.log (.reservedTrap 0x00))) = true ∧
    runs 0x3000 0xF028 State.reset
      (fun t => t.observer.getLast? == some (.log (.reservedTrap 0x28))) = true := by decide

/-! ## Fetch, reset, start, loader -/

/-- V-F-1. -/
theorem test_fetch_wraps : runs 0xFFFF 0x1021 State.reset (fun t => t.pc == 0x0000 && t.readReg .r0 == 1) = true := by
  decide
/-- V-F-2, first step: zeroed memory is a BR that is never taken. -/
theorem test_zero_memory_runs : holds (step State.reset.begin) (fun t => t.pc == 0x3001 && t.run && t.mem == []) = true := by
  decide
/-- V-ST-2: the store is executed by the next step. -/
theorem test_store_is_fetched : holds (step { at_ 0x3001 0xF025 with pc := 0x3001 }) (fun t => !t.run) = true ∧
    runs 0x3000 0x3000 (withR .r0 0xF025) (fun t => decode (fetchWord t) == .halt) = true := by decide
/-- V-R-2. -/
theorem test_load_and_start : holds (hostMove (.load [0x1021, 0xF025]) State.reset)
      (fun t => t.mem == [(0x3000, 0x1021), (0x3001, 0xF025)] && !t.run) = true ∧
    holds (hostMove .start State.reset) (fun t => t.pc == 0x3000 && t.run) = true := by decide
/-- V-R-3, and the refusals of D12. -/
theorem test_host_refusals : hostMove .start { State.reset with halted := true } = .refused .startNotAccepted ∧
    hostMove (.load []) { State.reset with run := true } = .refused .loadWhileRunning ∧
    hostMove (.loadBytes [0x21]) State.reset = .refused .imageOddLength :=
  ⟨rfl, rfl, rfl⟩
/-- 10_state.md R22: no reset while `RUN = 1`, in a hold neither; after a HALT it is taken (70 R220). -/
theorem test_reset_needs_idle : hostMove .reset (at_ 0x3000 0x1021) = .refused .resetWhileRunning ∧
    hostMove .reset { State.reset with run := true, pending := some .inByte } = .refused .resetWhileRunning ∧
    hostMove .reset { State.reset with pc := 0x3001, halted := true } = .next State.reset := ⟨rfl, rfl, rfl⟩
/-- The pairing of file bytes (20_memory.md R52): with little-endian order byte 2i is the low half. -/
theorem test_pairing : imageOfBytes true [0x21, 0x10, 0x25, 0xF0] = some [0x1021, 0xF025] ∧
    imageOfBytes false [0x10, 0x21] = some [0x1021] ∧ imageOfBytes true [0x21] = none := by decide
/-- The word placed for the host's own tests is what the next step runs. -/
theorem test_withFetchWord : holds (step (State.reset.withFetchWord 16 0x1021)) (fun t => t.readReg .r0 == 1) = true ∧
    holds (step (State.reset.withFetchWord 16 0xF025)) (fun t => t.halted && !t.run) = true := by decide

/-! ## Witnesses: states and operands that meet the hypotheses of the statements -/

/-- A running machine about to execute ADD R0,R0,#1 at the origin. -/
def running : State := at_ 0x3000 0x1021
/-- A running machine about to execute HALT. -/
def atHalt : State := at_ 0x3000 0xF025
/-- A machine after its HALT. -/
def ended : State := { State.reset with pc := 0x3001, halted := true }
/-- A machine that holds in GETC, and one that holds in INU16. -/
def holding (p : Pending) : State := { State.reset with run := true, pc := 0x3001, pending := some p }

theorem witness_DecodeOfEncode : Instr.wellFormed (.trap 0x28) = true ∧ Instr.wellFormed (.trap 0x1F) = true ∧
    Instr.wellFormed (.br 0b111 0x1FF) = true := by decide
theorem witness_SignExtensionOfFields : (1 ≤ 1 ∧ 1 ≤ 15) ∧ (1 ≤ 15 ∧ 15 ≤ 15) ∧
    (0x10 : BitVec 5).getLsbD (5 - 1) = true ∧ (0x0F : BitVec 5).getLsbD (5 - 1) = false ∧
    2 ^ (5 - 1) ≤ (0x10 : BitVec 5).toNat ∧ ¬ 2 ^ (5 - 1) ≤ (0x0F : BitVec 5).toNat := by decide
theorem witness_FlagFunctionByRange : (0x0000 : Word).toNat = 0 ∧
    (1 ≤ (0x0001 : Word).toNat ∧ (0x0001 : Word).toNat ≤ 0x7FFF) ∧
    (1 ≤ (0x7FFF : Word).toNat ∧ (0x7FFF : Word).toNat ≤ 0x7FFF) ∧ 0x8000 ≤ (0x8000 : Word).toNat ∧
    0x8000 ≤ (0xFFFF : Word).toNat := by decide
/-- The two sides of the memory port: the address written and another. -/
theorem witness_MemoryPortReadsAndWrites : (0xFFFF : Word) = 0xFFFF ∧ ¬ (0x0000 : Word) = 0xFFFF := by decide
theorem witness_CanonicalMemoryIsDetermined : Memory.wf [(0, 1), (0xFFFF, 0xABCD)] ∧
    Memory.wf (Memory.write (Memory.write [] 0xFFFF 0xABCD) 0 1) ∧
    ∀ a : Word, Memory.read [(0, 1), (0xFFFF, 0xABCD)] a =
      Memory.read (Memory.write (Memory.write [] 0xFFFF 0xABCD) 0 1) a :=
  ⟨by decide, by decide, fun _ => rfl⟩
theorem witness_ResetValues : State.reset.run = false ∧ ended.run = false ∧ running.run = true ∧
    (holding .inByte).run = true := by decide
theorem witness_StartRequest : (State.reset.run = false ∧ State.reset.halted = false) ∧
    running.run = true ∧ ended.halted = true := by decide
theorem witness_LoaderWritesImageAtOrigin : State.reset.run = false ∧ [0x1021, (0xF025 : Word)].length ≤ 0xD000 ∧
    1 < [0x1021, (0xF025 : Word)].length ∧ (0x2FFF : Word).toNat < 0x3000 ∧
    0x3000 + [0x1021, (0xF025 : Word)].length ≤ (0x3002 : Word).toNat := by decide
/-- The longest image: its last word lies at 0xFFFF. -/
theorem witness_LoaderLongestImage : (List.replicate 0xD000 (0x1021 : Word)).length ≤ 0xD000 ∧
    0xCFFF < (List.replicate 0xD000 (0x1021 : Word)).length ∧ (0x3000 + BitVec.ofNat 16 0xCFFF : Word) = 0xFFFF :=
  ⟨by rw [List.length_replicate], by rw [List.length_replicate]; decide, by decide⟩
theorem witness_StepRunsDecodedInstruction : running.run = true ∧ running.pending = none := by decide
theorem witness_IdleMachineChangesNothing : State.reset.run = false ∧ ended.run = false := by decide
theorem witness_BrBranchesOnCondition : condLegal 0b000 ∧ condLegal 0b001 ∧ condLegal 0b010 ∧ condLegal 0b100 ∧
    (0b100 &&& 0b101 : BitVec 3) ≠ 0 ∧ (0b000 &&& 0b111 : BitVec 3) = 0 := by decide
theorem witness_JsrrLinksThenGoesToRegister : Reg.r2 ≠ .r7 ∧ Reg.r7 = .r7 := by decide
theorem witness_GetcReadsOneByte : { running with byteAnswers := [0xFF, 0x00] }.byteAnswers = 0xFF :: [0x00] ∧
    running.byteAnswers = [] := by decide
theorem witness_Inu16ReadsOneLine :
    { running with lineAnswers := [some 0xBEEF] }.lineAnswers = some 0xBEEF :: [] ∧
    { running with lineAnswers := [none] }.lineAnswers = none :: [] ∧ running.lineAnswers = [] := by decide
theorem witness_ReservedTrapsOnlyLog : (0x1F : BitVec 8).toNat ≤ 0x1F ∧ 0x28 ≤ (0x28 : BitVec 8).toNat ∧
    (0x00 : BitVec 8).toNat ≤ 0x1F ∧ 0x28 ≤ (0xFF : BitVec 8).toNat := by decide
theorem witness_HaltStopsTheMachine : atHalt.run = true ∧ atHalt.pending = none ∧
    atHalt.readMem atHalt.pc = (0b1111#4 ++ 0b0000#4 ++ 0x25#8 : BitVec (4 + 4 + 8)) := by decide
theorem witness_HeldInputCompletesOnAnswer : ((holding .inByte).run = true ∧ (holding .inByte).pending = some .inByte ∧
      (holding .inByte).byteAnswers = []) ∧
    (holding .inLine).run = true ∧ (holding .inLine).pending = some .inLine ∧ (holding .inLine).lineAnswers = [] := by
  decide

/-! PUTS: a string of no word, one of two words, one of 65535 words, and a memory without a zero word. -/

/-- A memory that holds 1 in the given number of words from an address on. -/
def ones : Nat → Nat → Memory
  | _, 0 => []
  | k, n + 1 => (k, 1) :: ones (k + 1) n

theorem lookup_ones (k n j : Nat) : Memory.lookup (ones k n) j = if k ≤ j ∧ j < k + n then 1 else 0 := by
  induction n generalizing k with
  | zero => rw [if_neg (by omega)]; rfl
  | succ n ih =>
    show (if k = j then (1 : Word) else Memory.lookup (ones (k + 1) n) j) = _
    by_cases h : k = j
    · rw [if_pos h, if_pos (by omega)]
    · rw [if_neg h, ih]
      by_cases h' : k + 1 ≤ j ∧ j < k + 1 + n
      · rw [if_pos h', if_pos (by omega)]
      · rw [if_neg h', if_neg (by omega)]

/-- No word is zero: the machine holds in the endless PUTS. -/
def noZero : State := { holding .putsLoop with mem := ones 0 65536 }
/-- Every word is 1 but the one at 0xFFFF. -/
def lastZero : State := { running with mem := ones 0 65535 }

theorem noZero_reads (a : Word) : noZero.readMem a ≠ 0 := by
  show Memory.lookup (ones 0 65536) a.toNat ≠ 0
  rw [lookup_ones, if_pos ⟨Nat.zero_le _, by have := a.isLt; omega⟩]
  decide

theorem witness_PutsWithoutZeroNeverCompletes :
    noZero.run = true ∧ noZero.pending = some .putsLoop ∧ ∀ a : Word, noZero.readMem a ≠ 0 :=
  ⟨rfl, rfl, noZero_reads⟩
theorem witness_PutsWritesStringUpToZero :
    (running.readMem (running.readReg .r0 + BitVec.ofNat 16 0) = 0) ∧
    (∀ k : Nat, k < 2 → (withR .r0 0x3000 (at_ 0x3001 0xF022 running)).readMem (0x3000 + BitVec.ofNat 16 k) ≠ 0) ∧
    (withR .r0 0x3000 (at_ 0x3001 0xF022 running)).readMem (0x3000 + BitVec.ofNat 16 2) = 0 := by decide
/-- The longest string: 65535 words from address 0, the zero word at 0xFFFF. -/
theorem witness_PutsLongestString : (65535 < 65536) ∧
    (∀ k : Nat, k < 65535 → lastZero.readMem (lastZero.readReg .r0 + BitVec.ofNat 16 k) ≠ 0) ∧
    lastZero.readMem (lastZero.readReg .r0 + BitVec.ofNat 16 65535) = 0 := by
  have hr : ∀ a : Word, lastZero.readMem a = if a.toNat < 65535 then 1 else 0 := by
    intro a
    show Memory.lookup (ones 0 65535) a.toNat = _
    rw [lookup_ones]
    by_cases h : a.toNat < 65535
    · rw [if_pos h, if_pos (by omega)]
    · rw [if_neg h, if_neg (by omega)]
  have ha : ∀ k : Nat, lastZero.readReg .r0 + BitVec.ofNat 16 k = BitVec.ofNat 16 k := fun k => BitVec.zero_add _
  refine ⟨by decide, fun k hk => ?_, ?_⟩
  · rw [hr, ha, BitVec.toNat_ofNat, Nat.mod_eq_of_lt (by omega), if_pos hk]
    decide
  · rw [hr, ha]
    decide

/-! Statements about a next state: each has one. -/

theorem witness_TrapWritesOnlyR0AndRun : (trapVector .putc = some 0x21 ∧
      exec .putc running = .next (trapPutc running)) ∧ (0x21 : BitVec 8) ≠ 0x20 ∧ (0x21 : BitVec 8) ≠ 0x26 ∧
    (0x21 : BitVec 8) ≠ 0x25 ∧ noZero.run = true ∧ noZero.pending = some .putsLoop ∧
    step noZero = .next (resume .putsLoop noZero) :=
  ⟨⟨rfl, rfl⟩, by decide, by decide, by decide, rfl, rfl, rfl⟩
theorem witness_HandlersWriteOnlyTheirState : Instr.wellFormed (.addImm .r0 .r0 1) = true ∧
    exec (.addImm .r0 .r0 1) running = .next (running.writeDest .r0 1) ∧
    (∀ v : Word, Transaction.memWrite 0x0000 v ∉ transactions (.addImm .r0 .r0 1) running) ∧
    flagDest (.br 0b111 0) = none ∧ Instr.handler (.addImm .r0 .r0 1) ≠ .st :=
  ⟨rfl, rfl, fun _ h => (List.not_mem_nil h).elim, rfl, by decide⟩
theorem witness_FlagsFollowTheRegisterWritten :
    exec (.addImm .r0 .r0 1) running = .next (running.writeDest .r0 1) ∧
    flagDest (.addImm .r0 .r0 1) = some .r0 ∧ flagDest .halt = none := ⟨rfl, rfl, rfl⟩
theorem witness_TransactionsTellMemoryAndOutput :
    exec (.st .r0 0x1FF) running = .next (running.writeMem 0x2FFF 0) := rfl
theorem witness_InstructionsReadOnlyTheirTransactions :
    exec (.ld .r1 0) running = .next (running.writeDest .r1 0x1021) ∧
    ∀ a : Word, Transaction.memRead a ∈ transactions (.ld .r1 0) running →
      Memory.read [(0x3000, 0x1021), (0x4000, 7)] a = running.readMem a := by
  refine ⟨rfl, fun a h => ?_⟩
  have h : a = eaPc running 0 := by simpa [transactions] using h
  subst h
  rfl
theorem witness_TransactionCounts : Instr.wellFormed (.ldi .r0 0) = true ∧ Instr.ldi .r0 0 ≠ .puts ∧
    Transaction.consoleOut (.outString [0x1021]) ∈ transactions .puts (withR .r0 0x3000 running) := by decide
theorem witness_OnlyHaltClearsRun : step atHalt = exec .halt atHalt.afterFetch ∧ atHalt.run = true ∧
    step running = exec (.addImm .r0 .r0 1) running.afterFetch ∧ running.run = true := ⟨rfl, rfl, rfl, rfl⟩
theorem witness_ResetIsTheOnlyWayBack : ended.run = false ∧ running.run = true ∧ ended.ended ∧ step ended = .next ended ∧ HostMove.load [] ≠ .reset ∧
    hostMove (.load []) ended = .next ended := ⟨rfl, rfl, by decide, rfl, by decide, rfl⟩
theorem witness_HostLeavesRunningMachineAlone : running.run = true ∧
    hostMove (.answerByte 0x41) running = .next { running with byteAnswers := [0x41] } ∧
    hostMove (.answerLine none) running = .next { running with lineAnswers := [none] } := ⟨rfl, rfl, rfl⟩
theorem witness_StoreIsSeenByNextFetch : (at_ 0x3000 0x3000 (withR .r0 0xF025)).run = true ∧
    (at_ 0x3000 0x3000 (withR .r0 0xF025)).pending = none ∧
    holds (step (at_ 0x3000 0x3000 (withR .r0 0xF025))) (fun _ => true) = true ∧
    Transaction.memWrite ((at_ 0x3000 0x3000 (withR .r0 0xF025)).pc + 1) 0xF025 ∈
      stepTransactions (at_ 0x3000 0x3000 (withR .r0 0xF025)) := by decide
theorem witness_CondIsOneHotAfterFlagUpdate :
    step running = .next (running.afterFetch.writeDest .r0 1) ∧ condLegal running.cond ∧
    condOneHot (0b100 : BitVec 3) ∧ running.run = true ∧ running.pending = none ∧
    (flagDest (decode (running.readMem running.pc))).isSome = true :=
  ⟨rfl, by decide, by decide, rfl, rfl, by decide⟩
theorem witness_ObserverRecordsOfAStep : running.run = true ∧ running.pending = none ∧
    step running = .next (running.afterFetch.writeDest .r0 1) ∧
    (holding .inLine).run = true ∧ (holding .inLine).pending ≠ none ∧
    step (holding .inLine) = .next (resume .inLine (holding .inLine)) := ⟨rfl, rfl, rfl, rfl, by decide, rfl⟩
theorem witness_ObserverIsNeverRead :
    sameButObserver running { running with observer := [.log .hexParseFailure] } := rfl
theorem witness_ConsoleQueuesMoveInOrder : step running = .next (running.afterFetch.writeDest .r0 1) := rfl
theorem reset_inv : State.reset.Inv := by decide
theorem witness_StepKeepsInvariant : running.Inv ∧ step running = .next (running.afterFetch.writeDest .r0 1) :=
  ⟨by decide, rfl⟩
theorem witness_HostMovesKeepInvariant : State.reset.Inv ∧ hostMove .start State.reset = .next State.reset.begin :=
  ⟨by decide, rfl⟩
/-- A state a run reaches that is not reset: loaded and started, and one that is not yet started. -/
theorem witness_ReachableStatesMeetInvariant :
    Reachable { State.reset with mem := [(0x3000, 0xF025)] } ∧
    Reachable { State.reset with mem := [(0x3000, 0xF025)] }.begin ∧ State.reset.run = false ∧
    State.reset.halted = false :=
  have h : Reachable { State.reset with mem := [(0x3000, 0xF025)] } := .host (.load [0xF025]) .reset rfl
  ⟨h, .host .start h rfl, rfl, rfl⟩

end Sys2Proof.Tests
end

section
namespace Sys2Proof.Proofs.Memory

open Sys2Proof Sys2Proof.Machine

/-- The read-after-write law of the memory port, the address written and every other one in one equation (R53). -/
theorem readMem_writeMem (s : State) (a v b : Word) :
    (s.writeMem a v).readMem b = if b = a then v else s.readMem b := by
  split
  case isTrue h =>
    subst h
    exact State.readMem_writeMem_same s b v
  case isFalse h => exact State.readMem_writeMem_other s v h

/-- The frame of a write: with the old memory put back, it is the state before (R53). -/
theorem writeMem_restore_mem (s : State) (a v : Word) : { s.writeMem a v with mem := s.mem } = s := rfl

/-- Settles O9: the read-after-write law at every address, with the frame of the write. -/
theorem memoryPortReadsAndWrites : Obligations.MemoryPortReadsAndWrites :=
  fun s a v => ⟨readMem_writeMem s a v, writeMem_restore_mem s a v⟩

end Sys2Proof.Proofs.Memory
end

section
namespace Sys2Proof.Proofs.Encoding

open Sys2Proof Sys2Proof.Machine

/-! Sign extension (30_encoding.md R63), read through the sign bit of the field. -/

/-- With the sign bit set, the bits from the field's width up to 15 are ones (the first form of R63). -/
theorem sext_of_msb_true {n : Nat} (v : BitVec n) (hv : v.msb = true) :
    sext v = v.setWidth 16 ||| ((0xFFFF : Word) <<< n) := by
  rw [show (0xFFFF : Word) = BitVec.allOnes 16 from rfl]
  ext i hi
  simp only [sext, BitVec.getElem_signExtend, BitVec.getElem_or, BitVec.getElem_setWidth, BitVec.getElem_shiftLeft,
    BitVec.getElem_allOnes]
  by_cases hin : i < n <;> simp [hin, hv]

/-- The unsigned value of a sign-extended field (the second form of R63). -/
theorem toNat_sext {n : Nat} (v : BitVec n) (hn : n ≤ 16) :
    (sext v).toNat = if 2 ^ (n - 1) ≤ v.toNat then (v.toNat + 2 ^ 16 - 2 ^ n) % 2 ^ 16 else v.toNat := by
  have hlt : v.toNat < 2 ^ n := v.isLt
  have hpow : 2 ^ n ≤ 2 ^ 16 := Nat.pow_le_pow_right (by omega) hn
  rw [sext, BitVec.toNat_signExtend, BitVec.toNat_setWidth_of_le hn, BitVec.msb_eq_decide]
  simp only [decide_eq_true_eq]
  split
  · rw [Nat.mod_eq_of_lt (by omega)]
    omega
  · rfl

/-- Settles O7: both forms of the rule by the sign bit of the field; the signed reading is the library's. -/
theorem signExtensionOfFields : Obligations.SignExtensionOfFields := by
  intro n v _ hn
  refine ⟨?_, toNat_sext v (by omega), BitVec.toInt_signExtend_of_le (by omega)⟩
  rw [← BitVec.msb_eq_getLsbD_last]
  split
  case isTrue hv => exact sext_of_msb_true v hv
  case isFalse hv => exact BitVec.signExtend_eq_setWidth_of_msb_false (eq_false_of_ne_true hv)

/-! TRAP sub-decoding (R69): the word's opcode leads to the vector, the vector to the routine. -/

/-- A word of opcode 0xF decodes by its vector, whatever stands in bits 11..8. -/
theorem decode_fmtTrap (x : BitVec 4) (v : BitVec 8) : decode (fmtTrap 0xF x v) = decodeTrap v := by
  have hop : handlerOf (opcodeField (fmtTrap 0xF x v)) = .trap := by
    rw [opcodeField_fmtTrap]
    rfl
  simp only [decode, hop, trapField_fmtTrap]

/-- The table of R69 as an ordered choice on the vector. -/
theorem decodeTrap_eq_ite (v : BitVec 8) : decodeTrap v =
    if v = 0x20 then .getc else if v = 0x21 then .putc else if v = 0x22 then .puts else if v = 0x23 then .inTrap
    else if v = 0x24 then .putsp else if v = 0x25 then .halt else if v = 0x26 then .inu16 else if v = 0x27 then .outu16
    else .trap v := by
  simp only [decodeTrap, ← BitVec.toNat_inj]
  split
  case h_9 => simp_all -- the generic row: the vector is none of the eight
  all_goals next h => simp [h]

/-- Settles O5: the decoder hands the low byte alone to the routine table. -/
theorem trapVectorsSelectRoutines : Obligations.TrapVectorsSelectRoutines :=
  fun x v => (decode_fmtTrap x v).trans (decodeTrap_eq_ite v)

end Sys2Proof.Proofs.Encoding
end

section
namespace Sys2Proof.Proofs.AluFlags

open Sys2Proof Sys2Proof.Machine

/-- A word of opcode 0x1 with bit 5 set decodes to the immediate form of ADD (R67, R74). -/
theorem decode_fmtImm5_add (dr sr1 : Reg) (imm5 : BitVec 5) :
    decode (fmtImm5 0x1 dr.toBits sr1.toBits imm5) = .addImm dr sr1 imm5 := by
  have hop : handlerOf (opcodeField (fmtImm5 0x1 dr.toBits sr1.toBits imm5)) = .add := by
    rw [opcodeField_fmtImm5]
    rfl
  simp only [decode, hop, modeBit_fmtImm5, if_true, drField_fmtImm5, sr1Field_fmtImm5, imm5Field_fmtImm5,
    Reg.ofBits_toBits]

/-- The flags a flag-updating instruction leaves are those of the register it wrote (R112). -/
theorem writeDest_cond_eq_flagsOf_readReg (s : State) (dr : Reg) (v : Word) :
    (s.writeDest dr v).cond = flagsOf ((s.writeDest dr v).readReg dr) := by
  rw [State.writeDest_cond, State.readReg_writeDest_same]

/-- The frame of the write that ends each of the seven flag-updating instructions: `dr` and COND alone change. -/
theorem writeDest_frame (s : State) (dr : Reg) (v : Word) :
    sameRegsBut [dr] s (s.writeDest dr v) ∧ (s.writeDest dr v).pc = s.pc ∧ sameMem s (s.writeDest dr v) ∧
      sameControl s (s.writeDest dr v) ∧ sameHost s (s.writeDest dr v) :=
  ⟨fun r hr => State.readReg_writeDest_other s dr r v (List.ne_of_not_mem_cons hr), rfl,
    State.readMem_of_mem (State.writeDest_mem s dr v), ⟨rfl, rfl, rfl⟩, ⟨rfl, rfl, rfl⟩, rfl⟩

/-- Settles O18: the word decodes to ADD immediate, whose one effect is the write of the sum to `dr`. -/
theorem addImmediateForm : Obligations.AddImmediateForm :=
  fun dr sr1 imm5 s => ⟨decode_fmtImm5_add dr sr1 imm5, s.writeDest dr (s.readReg sr1 + imm5.signExtend 16), rfl,
    State.readReg_writeDest_same .., writeDest_cond_eq_flagsOf_readReg .., writeDest_frame ..⟩

/-- No routine of TRAP writes COND (44_trap.md R180). -/
@[simp] theorem trapDispatch_cond (vec : BitVec 8) (s : State) : (trapDispatch vec s).cond = s.cond := by
  obtain ⟨-, h⟩ | ⟨-, h⟩ | ⟨-, h⟩ | ⟨-, h⟩ | ⟨-, h⟩ | ⟨-, h⟩ | ⟨-, -, -, -, -, -, h⟩ := trapDispatch_cases s vec <;>
    rw [h]
  · exact trapGetc_cond s
  · exact State.consoleOut_cond ..
  · exact trapPuts_cond s
  · rfl -- HALT: RUN and the halted mark alone
  · exact trapInu16_cond s
  · exact State.consoleOut_cond ..
  · exact State.logEvent_cond ..

/-- An instruction with a flag destination writes it and takes COND from it. -/
theorem exec_cond_of_flagDest {i : Instr} {s t : State} {dr : Reg} (h : exec i s = .next t)
    (hdr : flagDest i = some dr) : t.cond = flagsOf (t.readReg dr) := by
  obtain ⟨dr', v, hd, rfl⟩ | ⟨hn, -⟩ | ⟨hn, -⟩ | ⟨hn, -⟩ | ⟨hn, -⟩ | ⟨hn, -⟩ := exec_cases h
  · obtain rfl : dr' = dr := Option.some.inj (hd.symm.trans hdr)
    exact writeDest_cond_eq_flagsOf_readReg ..
  all_goals cases hn.symm.trans hdr

/-- An instruction without a flag destination leaves COND alone, whatever else it does. -/
theorem exec_cond_of_flagDest_none {i : Instr} {s t : State} (h : exec i s = .next t) (hn : flagDest i = none) :
    t.cond = s.cond := by
  obtain ⟨dr, v, hd, -⟩ | ⟨-, -, a, v, rfl⟩ | ⟨-, -, rfl | ⟨v, rfl⟩⟩ | ⟨-, -, v, rfl⟩ | ⟨-, -, rfl⟩ |
    ⟨-, -, vec, -, rfl⟩ := exec_cases h
  · cases hn.symm.trans hd
  · exact State.writeMem_cond ..
  · rfl -- a branch not taken
  · exact State.setPc_cond ..
  · exact (State.setPc_cond ..).trans (State.link_cond s)
  · exact State.logEvent_cond ..
  · exact trapDispatch_cond vec s

/-- The instructions with a flag destination, row by row, are those of the seven flag-updating handlers (R112). -/
theorem flagDest_isSome_iff_handler (i : Instr) :
    (flagDest i).isSome = true ↔ i.handler ∈ [.add, .and, .ld, .ldi, .ldr, .lea, .not] := by
  cases i <;> simp [flagDest, Instr.handler]

/-- Settles O45: every instruction either ends in the write of its destination or leaves COND alone. -/
theorem flagsFollowTheRegisterWritten : Obligations.FlagsFollowTheRegisterWritten :=
  fun i _ _ h => ⟨fun _ hdr => exec_cond_of_flagDest h hdr, exec_cond_of_flagDest_none h,
    flagDest_isSome_iff_handler i⟩

end Sys2Proof.Proofs.AluFlags
end

section
namespace Sys2Proof.Proofs.Trap

open Sys2Proof Sys2Proof.Machine Sys2Proof.Proofs.Encoding

/-! The two routines that only output (44_trap.md R172, R178). -/

/-- PUTC reads R0 and does one thing: it outputs its low byte (R172). -/
theorem exec_putc (s : State) :
    exec .putc s = .next (s.consoleOut (.outByte ((s.readReg .r0).extractLsb' 0 8))) := rfl

/-- OUTU16 reads R0 and does one thing: it outputs its value (R178). -/
theorem exec_outu16 (s : State) : exec .outu16 s = .next (s.consoleOut (.outHex (s.readReg .r0))) := rfl

/-- The low byte of a word, as a number. -/
theorem toNat_lowByte (w : Word) : (w.extractLsb' 0 8 : BitVec 8).toNat = w.toNat % 256 := by
  rw [BitVec.extractLsb'_toNat, Nat.shiftRight_zero]

/-- The frame of an output: with the old output put back, it is the state before (R183). -/
theorem consoleOut_restore_out (s : State) (e : OutEvent) : { s.consoleOut e with out := s.out } = s := rfl

/-- Settles O35: the word decodes to PUTC, whose one effect is the output of the low byte of R0. -/
theorem putcWritesLowByte : Obligations.PutcWritesLowByte :=
  fun x s => ⟨decode_fmtTrap x 0x21, _, _, exec_putc s, toNat_lowByte _, State.consoleOut_out ..,
    consoleOut_restore_out ..⟩

/-- Settles O41: the word decodes to OUTU16, whose one effect is the output of R0. -/
theorem outu16WritesHex : Obligations.Outu16WritesHex :=
  fun x s => ⟨decode_fmtTrap x 0x27, exec_outu16 s⟩

/-! The reserved vectors (R174, R175, R179). -/

/-- IN is unimplemented (R174). -/
theorem exec_inTrap (s : State) : exec .inTrap s = .next (s.logEvent (.reservedTrap 0x23)) := rfl

/-- PUTSP is unimplemented (R175). -/
theorem exec_putsp (s : State) : exec .putsp s = .next (s.logEvent (.reservedTrap 0x24)) := rfl

/-- A vector outside 0x20..0x27 has no row of its own in the table of R69. -/
theorem decodeTrap_of_outside {v : BitVec 8} (h : v.toNat ≤ 0x1F ∨ 0x28 ≤ v.toNat) : decodeTrap v = .trap v := by
  unfold decodeTrap
  split
  case h_9 => rfl -- the generic row
  all_goals omega

/-- A vector outside 0x20..0x27 has no routine in the table of R170: it is logged and nothing else (R179). -/
theorem trapDispatch_of_outside {v : BitVec 8} (h : v.toNat ≤ 0x1F ∨ 0x28 ≤ v.toNat) (s : State) :
    trapDispatch v s = s.logEvent (.reservedTrap v) := by
  obtain ⟨rfl, -⟩ | ⟨rfl, -⟩ | ⟨rfl, -⟩ | ⟨rfl, -⟩ | ⟨rfl, -⟩ | ⟨rfl, -⟩ | ⟨-, -, -, -, -, -, hres⟩ :=
    trapDispatch_cases s v
  case inr.inr.inr.inr.inr.inr => exact hres
  all_goals exact absurd h (by decide) -- the six vectors with a routine lie in 0x20..0x27

/-- TRAP by the generic row, for a vector outside 0x20..0x27 (R179). -/
theorem exec_trap_of_outside {v : BitVec 8} (h : v.toNat ≤ 0x1F ∨ 0x28 ≤ v.toNat) (s : State) :
    exec (.trap v) s = .next (s.logEvent (.reservedTrap v)) := by
  rw [exec_of_trapVector s rfl, trapDispatch_of_outside h]

/-- Settles O38: IN, PUTSP and every vector outside 0x20..0x27 decode to a row whose one effect is its log event. -/
theorem reservedTrapsOnlyLog : Obligations.ReservedTrapsOnlyLog :=
  fun x v s => ⟨decode_fmtTrap x 0x23, decode_fmtTrap x 0x24, exec_inTrap s, exec_putsp s,
    fun h => ⟨(decode_fmtTrap x v).trans (decodeTrap_of_outside h), exec_trap_of_outside h s⟩⟩

end Sys2Proof.Proofs.Trap
end

section
namespace Sys2Proof.Proofs.Decoder

open Sys2Proof Sys2Proof.Machine Sys2Proof.Proofs.Encoding Sys2Proof.Proofs.AluFlags Sys2Proof.Proofs.Trap

/-! The decoder on each form of 30_encoding.md R67, whatever the ignored bits are. Beside these stand
`decode_fmtTrap` and `decode_fmtImm5_add`. -/

section
variable {op : BitVec 4}

theorem decode_fmtOff9_br (h : handlerOf op = .br) (nzp : BitVec 3) (off : BitVec 9) :
    decode (fmtOff9 op nzp off) = .br nzp off := by
  simp only [decode, opcodeField_fmtOff9, h, nzpField_fmtOff9, off9Field_fmtOff9]

theorem decode_fmtReg_add (h : handlerOf op = .add) (dr sr1 sr2 : Reg) (x : BitVec 2) :
    decode (fmtReg op dr.toBits sr1.toBits x sr2.toBits) = .addReg dr sr1 sr2 := by
  simp only [decode, opcodeField_fmtReg, h, modeBit_fmtReg, drField_fmtReg, sr1Field_fmtReg, sr2Field_fmtReg,
    Reg.ofBits_toBits, Bool.false_eq_true, if_false]

theorem decode_fmtReg_and (h : handlerOf op = .and) (dr sr1 sr2 : Reg) (x : BitVec 2) :
    decode (fmtReg op dr.toBits sr1.toBits x sr2.toBits) = .andReg dr sr1 sr2 := by
  simp only [decode, opcodeField_fmtReg, h, modeBit_fmtReg, drField_fmtReg, sr1Field_fmtReg, sr2Field_fmtReg,
    Reg.ofBits_toBits, Bool.false_eq_true, if_false]

theorem decode_fmtImm5_and (h : handlerOf op = .and) (dr sr1 : Reg) (imm : BitVec 5) :
    decode (fmtImm5 op dr.toBits sr1.toBits imm) = .andImm dr sr1 imm := by
  simp only [decode, opcodeField_fmtImm5, h, modeBit_fmtImm5, drField_fmtImm5, sr1Field_fmtImm5, imm5Field_fmtImm5,
    Reg.ofBits_toBits, if_true]

theorem decode_fmtOff6_not (h : handlerOf op = .not) (dr sr1 : Reg) (x : BitVec 6) :
    decode (fmtOff6 op dr.toBits sr1.toBits x) = .not dr sr1 := by
  simp only [decode, opcodeField_fmtOff6, h, drField_fmtOff6, sr1Field_fmtOff6, Reg.ofBits_toBits]

theorem decode_fmtOff9_ld (h : handlerOf op = .ld) (dr : Reg) (off : BitVec 9) :
    decode (fmtOff9 op dr.toBits off) = .ld dr off := by
  simp only [decode, opcodeField_fmtOff9, h, drField_fmtOff9, off9Field_fmtOff9, Reg.ofBits_toBits]

theorem decode_fmtOff9_ldi (h : handlerOf op = .ldi) (dr : Reg) (off : BitVec 9) :
    decode (fmtOff9 op dr.toBits off) = .ldi dr off := by
  simp only [decode, opcodeField_fmtOff9, h, drField_fmtOff9, off9Field_fmtOff9, Reg.ofBits_toBits]

theorem decode_fmtOff9_lea (h : handlerOf op = .lea) (dr : Reg) (off : BitVec 9) :
    decode (fmtOff9 op dr.toBits off) = .lea dr off := by
  simp only [decode, opcodeField_fmtOff9, h, drField_fmtOff9, off9Field_fmtOff9, Reg.ofBits_toBits]

theorem decode_fmtOff9_st (h : handlerOf op = .st) (sr : Reg) (off : BitVec 9) :
    decode (fmtOff9 op sr.toBits off) = .st sr off := by
  simp only [decode, opcodeField_fmtOff9, h, drField_fmtOff9, off9Field_fmtOff9, Reg.ofBits_toBits]

theorem decode_fmtOff9_sti (h : handlerOf op = .sti) (sr : Reg) (off : BitVec 9) :
    decode (fmtOff9 op sr.toBits off) = .sti sr off := by
  simp only [decode, opcodeField_fmtOff9, h, drField_fmtOff9, off9Field_fmtOff9, Reg.ofBits_toBits]

theorem decode_fmtOff6_ldr (h : handlerOf op = .ldr) (dr base : Reg) (off : BitVec 6) :
    decode (fmtOff6 op dr.toBits base.toBits off) = .ldr dr base off := by
  simp only [decode, opcodeField_fmtOff6, h, drField_fmtOff6, sr1Field_fmtOff6, off6Field_fmtOff6, Reg.ofBits_toBits]

theorem decode_fmtOff6_str (h : handlerOf op = .str) (sr base : Reg) (off : BitVec 6) :
    decode (fmtOff6 op sr.toBits base.toBits off) = .str sr base off := by
  simp only [decode, opcodeField_fmtOff6, h, drField_fmtOff6, sr1Field_fmtOff6, off6Field_fmtOff6, Reg.ofBits_toBits]

theorem decode_fmtOff6_jmp (h : handlerOf op = .jmp) (x : BitVec 3) (base : Reg) (y : BitVec 6) :
    decode (fmtOff6 op x base.toBits y) = .jmp base := by
  simp only [decode, opcodeField_fmtOff6, h, sr1Field_fmtOff6, Reg.ofBits_toBits]

theorem decode_fmtOff11_jsr (h : handlerOf op = .jsr) (off : BitVec 11) : decode (fmtOff11 op off) = .jsr off := by
  simp only [decode, opcodeField_fmtOff11, h, modeBit_fmtOff11, off11Field_fmtOff11, if_true]

theorem decode_fmtBase_jsrr (h : handlerOf op = .jsr) (x : BitVec 2) (base : Reg) (y : BitVec 6) :
    decode (fmtBase op x base.toBits y) = .jsrr base := by
  simp only [decode, opcodeField_fmtBase, h, modeBit_fmtBase, sr1Field_fmtBase, Reg.ofBits_toBits,
    Bool.false_eq_true, if_false]

theorem decode_fmtNone_rti (h : handlerOf op = .rti) (x : BitVec 12) : decode (fmtNone op x) = .rti := by
  simp only [decode, opcodeField_fmtNone, h]

theorem decode_fmtNone_res (h : handlerOf op = .res) (x : BitVec 12) : decode (fmtNone op x) = .res := by
  simp only [decode, opcodeField_fmtNone, h]

end

/-- The vectors of the generic TRAP row, in the form of R179. -/
theorem outside_of_generic {v : BitVec 8} (h : vectorIsGeneric v = true) : v.toNat ≤ 0x1F ∨ 0x28 ≤ v.toNat := by
  simp only [vectorIsGeneric, Bool.or_eq_true, decide_eq_true_eq] at h
  omega

/-- The vectors of the generic TRAP row decode to it (R69). -/
theorem decodeTrap_of_generic {v : BitVec 8} (h : vectorIsGeneric v = true) : decodeTrap v = .trap v :=
  decodeTrap_of_outside (outside_of_generic h)

/-- Settles O1: row by row, the decoder on the form that the encoder writes. -/
theorem decodeOfEncode : Obligations.DecodeOfEncode := by
  intro i hwf
  cases i with
  | br nzp off => exact decode_fmtOff9_br (handlerOf_opcodeOf _) nzp off
  | addReg dr sr1 sr2 => exact decode_fmtReg_add (handlerOf_opcodeOf _) dr sr1 sr2 0
  | addImm dr sr1 imm => exact decode_fmtImm5_add dr sr1 imm
  | ld dr off => exact decode_fmtOff9_ld (handlerOf_opcodeOf _) dr off
  | st sr off => exact decode_fmtOff9_st (handlerOf_opcodeOf _) sr off
  | jsr off => exact decode_fmtOff11_jsr (handlerOf_opcodeOf _) off
  | jsrr base => exact decode_fmtBase_jsrr (handlerOf_opcodeOf _) 0 base 0
  | andReg dr sr1 sr2 => exact decode_fmtReg_and (handlerOf_opcodeOf _) dr sr1 sr2 0
  | andImm dr sr1 imm => exact decode_fmtImm5_and (handlerOf_opcodeOf _) dr sr1 imm
  | ldr dr base off => exact decode_fmtOff6_ldr (handlerOf_opcodeOf _) dr base off
  | str sr base off => exact decode_fmtOff6_str (handlerOf_opcodeOf _) sr base off
  | rti => exact decode_fmtNone_rti (handlerOf_opcodeOf _) 0
  | not dr sr1 => exact decode_fmtOff6_not (handlerOf_opcodeOf _) dr sr1 0b111111
  | ldi dr off => exact decode_fmtOff9_ldi (handlerOf_opcodeOf _) dr off
  | sti sr off => exact decode_fmtOff9_sti (handlerOf_opcodeOf _) sr off
  | jmp base => exact decode_fmtOff6_jmp (handlerOf_opcodeOf _) 0 base 0
  | res => exact decode_fmtNone_res (handlerOf_opcodeOf _) 0
  | lea dr off => exact decode_fmtOff9_lea (handlerOf_opcodeOf _) dr off
  | trap vec => exact (decode_fmtTrap 0 vec).trans (decodeTrap_of_generic hwf)
  | getc => exact decode_fmtTrap 0 0x20
  | putc => exact decode_fmtTrap 0 0x21
  | puts => exact decode_fmtTrap 0 0x22
  | inTrap => exact decode_fmtTrap 0 0x23
  | putsp => exact decode_fmtTrap 0 0x24
  | halt => exact decode_fmtTrap 0 0x25
  | inu16 => exact decode_fmtTrap 0 0x26
  | outu16 => exact decode_fmtTrap 0 0x27

/-! What holds of every decoded instruction. -/

/-- The routine table answers an instruction of the TRAP opcode. -/
theorem handler_decodeTrap (v : BitVec 8) : (decodeTrap v).handler = .trap := by
  unfold decodeTrap
  split <;> rfl

/-- The decoded instruction belongs to the handler that the opcode selects (R66, R74). -/
theorem handler_decode (w : Word) : (decode w).handler = handlerOf (opcodeField w) := by
  cases hh : handlerOf (opcodeField w) <;> simp only [decode, hh]
  case trap => exact handler_decodeTrap _
  case add | and | jsr => split <;> rfl -- by the mode bit
  all_goals rfl

/-- The routine table has no vector with a row of its own under the generic row. -/
theorem wellFormed_decodeTrap (v : BitVec 8) : (decodeTrap v).wellFormed = true := by
  unfold decodeTrap
  split
  case h_9 => -- the generic row: the vector is none of the eight
    simp only [imp_false] at *
    simp only [Instr.wellFormed, vectorIsGeneric, Bool.or_eq_true, decide_eq_true_eq]
    omega
  all_goals rfl

/-- Settles O2: only TRAP has an ill-formed term, and the routine table never answers it. -/
theorem decodedIsWellFormed : Obligations.DecodedIsWellFormed := by
  intro w
  cases hh : handlerOf (opcodeField w) <;> simp only [decode, hh]
  case trap => exact wellFormed_decodeTrap _
  case add | and | jsr => split <;> rfl -- by the mode bit
  all_goals rfl

/-- Settles O4: a word of an opcode decodes into the handler at its place in the opcode map. -/
theorem opcodeMapSelectsHandlers : Obligations.OpcodeMapSelectsHandlers := by
  intro x
  have h (op : BitVec 4) : (decode (fmtNone op x)).handler = handlerOf op := by
    rw [handler_decode, opcodeField_fmtNone]
  exact ⟨h 0x0, h 0x1, h 0x2, h 0x3, h 0x4, h 0x5, h 0x6, h 0x7, h 0x8, h 0x9, h 0xA, h 0xB, h 0xC, h 0xD, h 0xE, h 0xF⟩

/-- Settles O6: each of the twelve words is decoded. -/
theorem specWordsDecode : Obligations.SpecWordsDecode := by
  unfold Obligations.SpecWordsDecode
  decide

/-! Every word is the format of its own fields (R61, R67). -/

/-- A bit is a field of width 1. -/
theorem extractLsb'_one (w : Word) (n : Nat) : w.extractLsb' n 1 = BitVec.ofBool (isBitSet w n) := by
  ext i hi
  obtain rfl : i = 0 := by omega
  simp [isBitSet]

@[simp] theorem toBits_drField (w : Word) : (drField w).toBits = w.extractLsb' 9 3 := Reg.toBits_ofBits _
@[simp] theorem toBits_sr1Field (w : Word) : (sr1Field w).toBits = w.extractLsb' 6 3 := Reg.toBits_ofBits _
@[simp] theorem toBits_sr2Field (w : Word) : (sr2Field w).toBits = w.extractLsb' 0 3 := Reg.toBits_ofBits _

theorem fmtOff9_fields (w : Word) : fmtOff9 (opcodeField w) (w.extractLsb' 9 3) (off9Field w) = w := by
  simp only [fmtOff9, opcodeField, off9Field, BitVec.extractLsb'_append_extractLsb'_eq_extractLsb']
  exact extractLsb'_whole w

theorem fmtReg_fields {w : Word} (h : isBitSet w 5 = false) :
    fmtReg (opcodeField w) (w.extractLsb' 9 3) (w.extractLsb' 6 3) (w.extractLsb' 3 2) (w.extractLsb' 0 3) = w := by
  have hbit : 0#1 = w.extractLsb' 5 1 := by rw [extractLsb'_one, h]; rfl
  simp only [fmtReg, opcodeField, hbit, BitVec.extractLsb'_append_extractLsb'_eq_extractLsb']
  exact extractLsb'_whole w

theorem fmtImm5_fields {w : Word} (h : isBitSet w 5 = true) :
    fmtImm5 (opcodeField w) (w.extractLsb' 9 3) (w.extractLsb' 6 3) (imm5Field w) = w := by
  have hbit : 1#1 = w.extractLsb' 5 1 := by rw [extractLsb'_one, h]; rfl
  simp only [fmtImm5, opcodeField, imm5Field, hbit, BitVec.extractLsb'_append_extractLsb'_eq_extractLsb']
  exact extractLsb'_whole w

theorem fmtOff6_fields (w : Word) :
    fmtOff6 (opcodeField w) (w.extractLsb' 9 3) (w.extractLsb' 6 3) (off6Field w) = w := by
  simp only [fmtOff6, opcodeField, off6Field, BitVec.extractLsb'_append_extractLsb'_eq_extractLsb']
  exact extractLsb'_whole w

theorem fmtOff11_fields {w : Word} (h : isBitSet w 11 = true) : fmtOff11 (opcodeField w) (off11Field w) = w := by
  have hbit : 1#1 = w.extractLsb' 11 1 := by rw [extractLsb'_one, h]; rfl
  simp only [fmtOff11, opcodeField, off11Field, hbit, BitVec.extractLsb'_append_extractLsb'_eq_extractLsb']
  exact extractLsb'_whole w

theorem fmtBase_fields {w : Word} (h : isBitSet w 11 = false) :
    fmtBase (opcodeField w) (w.extractLsb' 9 2) (w.extractLsb' 6 3) (w.extractLsb' 0 6) = w := by
  have hbit : 0#1 = w.extractLsb' 11 1 := by rw [extractLsb'_one, h]; rfl
  simp only [fmtBase, opcodeField, hbit, BitVec.extractLsb'_append_extractLsb'_eq_extractLsb']
  exact extractLsb'_whole w

theorem fmtNone_fields (w : Word) : fmtNone (opcodeField w) (w.extractLsb' 0 12) = w := by
  simp only [fmtNone, opcodeField, BitVec.extractLsb'_append_extractLsb'_eq_extractLsb']
  exact extractLsb'_whole w

theorem fmtTrap_fields (w : Word) : fmtTrap (opcodeField w) (w.extractLsb' 8 4) (trapField w) = w := by
  simp only [fmtTrap, opcodeField, trapField, BitVec.extractLsb'_append_extractLsb'_eq_extractLsb']
  exact extractLsb'_whole w

/-! The used bits of a format do not depend on the ignored parts (R68). -/

section
variable (op : BitVec 4) (d a b : BitVec 3)

theorem fmtReg_usedBits (x y : BitVec 2) : fmtReg op d a x b &&& 0xFFE7 = fmtReg op d a y b &&& 0xFFE7 := by
  change (op ++ d ++ a ++ 0#1 ++ x ++ b) &&& (0xF#4 ++ 7#3 ++ 7#3 ++ 1#1 ++ 0#2 ++ 7#3) = (op ++ d ++ a ++ 0#1 ++ y ++ b) &&& (0xF#4 ++ 7#3 ++ 7#3 ++ 1#1 ++ 0#2 ++ 7#3)
  simp only [BitVec.and_append, BitVec.and_zero]

theorem fmtOff6_usedBits_not (x y : BitVec 6) : fmtOff6 op d a x &&& 0xFFC0 = fmtOff6 op d a y &&& 0xFFC0 := by
  change (op ++ d ++ a ++ x) &&& (0xF#4 ++ 7#3 ++ 7#3 ++ 0#6) = (op ++ d ++ a ++ y) &&& (0xF#4 ++ 7#3 ++ 7#3 ++ 0#6)
  simp only [BitVec.and_append, BitVec.and_zero]

theorem fmtOff6_usedBits_jmp (d' : BitVec 3) (x y : BitVec 6) :
    fmtOff6 op d a x &&& 0xF1C0 = fmtOff6 op d' a y &&& 0xF1C0 := by
  change (op ++ d ++ a ++ x) &&& (0xF#4 ++ 0#3 ++ 7#3 ++ 0#6) = (op ++ d' ++ a ++ y) &&& (0xF#4 ++ 0#3 ++ 7#3 ++ 0#6)
  simp only [BitVec.and_append, BitVec.and_zero]

theorem fmtBase_usedBits (x x' : BitVec 2) (y y' : BitVec 6) :
    fmtBase op x a y &&& 0xF9C0 = fmtBase op x' a y' &&& 0xF9C0 := by
  change (op ++ 0#1 ++ x ++ a ++ y) &&& (0xF#4 ++ 1#1 ++ 0#2 ++ 7#3 ++ 0#6) = (op ++ 0#1 ++ x' ++ a ++ y') &&& (0xF#4 ++ 1#1 ++ 0#2 ++ 7#3 ++ 0#6)
  simp only [BitVec.and_append, BitVec.and_zero]

theorem fmtNone_usedBits (x y : BitVec 12) : fmtNone op x &&& 0xF000 = fmtNone op y &&& 0xF000 := by
  change (op ++ x) &&& (0xF#4 ++ 0#12) = (op ++ y) &&& (0xF#4 ++ 0#12)
  simp only [BitVec.and_append, BitVec.and_zero]

theorem fmtTrap_usedBits (v : BitVec 8) (x y : BitVec 4) : fmtTrap op x v &&& 0xF0FF = fmtTrap op y v &&& 0xF0FF := by
  change (op ++ x ++ v) &&& (0xF#4 ++ 0#4 ++ 0xFF#8) = (op ++ y ++ v) &&& (0xF#4 ++ 0#4 ++ 0xFF#8)
  simp only [BitVec.and_append, BitVec.and_zero]

end

theorem usedBits_decodeTrap (v : BitVec 8) : usedBits (decodeTrap v) = 0xF0FF := by
  unfold decodeTrap
  split <;> rfl

/-- The encoder writes the vector of the row that the routine table answers (R69). -/
theorem encode_decodeTrap (v : BitVec 8) : encode (decodeTrap v) = fmtTrap (opcodeOf .trap) 0 v := by
  unfold decodeTrap
  split
  case h_9 => rfl -- the generic row carries its vector
  all_goals next h => exact congrArg (fmtTrap (opcodeOf .trap) 0) (BitVec.eq_of_toNat_eq h.symm)

/-- Encoding what a word decodes to gives the word back on the bits its form uses: the word is the format of its own
fields, and the encoder differs from it in ignored parts only. -/
theorem encode_decode_usedBits (w : Word) : encode (decode w) &&& usedBits (decode w) = w &&& usedBits (decode w) := by
  have hop := opcodeOf_handlerOf (opcodeField w)
  cases hh : handlerOf (opcodeField w) <;> rw [hh] at hop
  case br => simp only [decode, hh, encode, hop, nzpField, fmtOff9_fields]
  case ld | st | ldi | sti | lea => simp only [decode, hh, encode, hop, toBits_drField, fmtOff9_fields]
  case ldr | str => simp only [decode, hh, encode, hop, toBits_drField, toBits_sr1Field, fmtOff6_fields]
  case add | and =>
    cases hm : isBitSet w 5 with
    | true => simp only [decode, hh, hm, encode, hop, if_true, toBits_drField, toBits_sr1Field, fmtImm5_fields]
    | false =>
      simp only [decode, hh, hm, encode, hop, usedBits, Bool.false_eq_true, if_false, toBits_drField, toBits_sr1Field,
        toBits_sr2Field]
      rw [fmtReg_usedBits _ _ _ _ _ (w.extractLsb' 3 2), fmtReg_fields hm]
  case jsr =>
    cases hm : isBitSet w 11 with
    | true => simp only [decode, hh, hm, encode, hop, if_true, fmtOff11_fields]
    | false =>
      simp only [decode, hh, hm, encode, hop, usedBits, Bool.false_eq_true, if_false, toBits_sr1Field]
      rw [fmtBase_usedBits _ _ _ (w.extractLsb' 9 2) _ (w.extractLsb' 0 6), fmtBase_fields hm]
  case not =>
    simp only [decode, hh, encode, hop, usedBits, toBits_drField, toBits_sr1Field]
    rw [fmtOff6_usedBits_not _ _ _ _ (off6Field w), fmtOff6_fields]
  case jmp =>
    simp only [decode, hh, encode, hop, usedBits, toBits_sr1Field]
    rw [fmtOff6_usedBits_jmp _ _ _ (w.extractLsb' 9 3) _ (off6Field w), fmtOff6_fields]
  case rti | res =>
    simp only [decode, hh, encode, hop, usedBits]
    rw [fmtNone_usedBits _ _ (w.extractLsb' 0 12), fmtNone_fields]
  case trap =>
    simp only [decode, hh, encode_decodeTrap, hop, usedBits_decodeTrap]
    rw [fmtTrap_usedBits _ _ _ (w.extractLsb' 8 4), fmtTrap_fields]

/-! Words that agree on a mask agree on every field that the mask covers. -/

section
variable {w w' u : Word}

theorem field_eq_of_agree (h : w &&& u = w' &&& u) {start len : Nat}
    (hu : u.extractLsb' start len = BitVec.allOnes len) : w'.extractLsb' start len = w.extractLsb' start len := by
  have := congrArg (BitVec.extractLsb' start len) h
  rw [BitVec.extractLsb'_and, BitVec.extractLsb'_and, hu, BitVec.and_allOnes, BitVec.and_allOnes] at this
  exact this.symm

theorem isBitSet_eq_of_agree (h : w &&& u = w' &&& u) {n : Nat} (hu : isBitSet u n = true) :
    isBitSet w' n = isBitSet w n := by
  have := congrArg (isBitSet · n) h
  simp only [isBitSet, BitVec.getLsbD_and] at this hu ⊢
  rw [hu, Bool.and_true, Bool.and_true] at this
  exact this.symm

end

/-- Every form uses the opcode (R67). -/
theorem opcodeField_usedBits (i : Instr) : opcodeField (usedBits i) = BitVec.allOnes 4 := by
  cases i <;> simp only [usedBits] <;> rfl

/-- The fields of the register form of ADD and AND. -/
theorem fields_eq_of_agree_reg {w w' : Word} (h : w &&& 0xFFE7 = w' &&& 0xFFE7) :
    isBitSet w' 5 = isBitSet w 5 ∧ drField w' = drField w ∧ sr1Field w' = sr1Field w ∧ sr2Field w' = sr2Field w :=
  ⟨isBitSet_eq_of_agree h rfl, congrArg Reg.ofBits (field_eq_of_agree h rfl),
    congrArg Reg.ofBits (field_eq_of_agree h rfl), congrArg Reg.ofBits (field_eq_of_agree h rfl)⟩

/-- A word that agrees with `w` on the bits that the form of `w` uses decodes as `w` does. -/
theorem decode_eq_of_agree {w w' : Word} (h : w &&& usedBits (decode w) = w' &&& usedBits (decode w)) :
    decode w' = decode w := by
  have hop : opcodeField w' = opcodeField w := field_eq_of_agree h (opcodeField_usedBits _)
  have full (hu : usedBits (decode w) = BitVec.allOnes 16) : decode w' = decode w := by
    rw [hu, BitVec.and_allOnes, BitVec.and_allOnes] at h
    rw [h]
  cases hh : handlerOf (opcodeField w)
  case br | ld | st | ldi | sti | lea | ldr | str => exact full (by simp only [decode, hh]; rfl)
  case rti | res => simp only [decode, hop, hh]
  case add | and =>
    cases hm : isBitSet w 5 with
    | true => exact full (by simp only [decode, hh, hm]; rfl)
    | false =>
      simp only [decode, hh, hm, usedBits, Bool.false_eq_true, if_false] at h
      obtain ⟨hm', hdr, hsr1, hsr2⟩ := fields_eq_of_agree_reg h
      simp only [decode, hop, hh, hm', hm, hdr, hsr1, hsr2, Bool.false_eq_true, if_false]
  case jsr =>
    cases hm : isBitSet w 11 with
    | true => exact full (by simp only [decode, hh, hm]; rfl)
    | false =>
      simp only [decode, hh, hm, usedBits, Bool.false_eq_true, if_false] at h
      simp only [decode, hop, hh, hm, isBitSet_eq_of_agree h (n := 11) rfl, sr1Field,
        field_eq_of_agree h (start := 6) (len := 3) rfl, Bool.false_eq_true, if_false]
  case not =>
    simp only [decode, hh, usedBits] at h
    simp only [decode, hop, hh, drField, sr1Field, field_eq_of_agree h (start := 9) (len := 3) rfl,
      field_eq_of_agree h (start := 6) (len := 3) rfl]
  case jmp =>
    simp only [decode, hh, usedBits] at h
    simp only [decode, hop, hh, sr1Field, field_eq_of_agree h (start := 6) (len := 3) rfl]
  case trap =>
    simp only [decode, hh, usedBits_decodeTrap] at h
    simp only [decode, hop, hh, trapField, field_eq_of_agree h (start := 0) (len := 8) rfl]

/-- Settles O3: one way the decoded instruction is encoded again, the other way the used bits tell every field. -/
theorem wordsDecodeAlikeIffUsedBitsAgree : Obligations.WordsDecodeAlikeIffUsedBitsAgree := by
  intro w w'
  constructor
  · intro h
    calc w &&& usedBits (decode w) = encode (decode w) &&& usedBits (decode w) := (encode_decode_usedBits w).symm
      _ = encode (decode w') &&& usedBits (decode w') := by rw [h]
      _ = w' &&& usedBits (decode w') := encode_decode_usedBits w'
      _ = w' &&& usedBits (decode w) := by rw [h]
  · exact fun h => (decode_eq_of_agree h).symm

end Sys2Proof.Proofs.Decoder
end

section
namespace Sys2Proof.Proofs.MemoryImage

open Sys2Proof Sys2Proof.Machine

/-! The canonical form lists exactly the words that are not zero (20_memory.md R40). -/

theorem lookup_of_mem {m : Memory} (h : m.wf) {c : Cell} (hc : c ∈ m) : m.lookup c.1 = c.2 := by
  obtain ⟨hsorted, -⟩ := h
  induction m with
  | nil => cases hc
  | cons d rest ih =>
    obtain ⟨hd, hrest⟩ := List.pairwise_cons.mp hsorted
    rcases List.mem_cons.mp hc with rfl | hc
    · exact if_pos rfl
    · exact (if_neg (hd c hc).ne).trans (ih hc hrest)

theorem mem_of_lookup_ne_zero {m : Memory} {k : Nat} (h : m.lookup k ≠ 0) : (k, m.lookup k) ∈ m := by
  induction m with
  | nil => exact absurd rfl h
  | cons d rest ih =>
    by_cases hd : d.1 = k
    · have hl : Memory.lookup (d :: rest) k = d.2 := if_pos hd
      rw [hl, ← hd]
      exact List.mem_cons_self
    · have hl : Memory.lookup (d :: rest) k = Memory.lookup rest k := if_neg hd
      rw [hl] at h ⊢
      exact List.mem_cons_of_mem _ (ih h)

/-- A canonical memory has no cell that a memory that reads alike lacks. -/
theorem subset_of_read_eq {m m' : Memory} (h : m.wf) (hread : ∀ a : Word, m.read a = m'.read a) : m ⊆ m' := by
  intro c hc
  obtain ⟨haddr, hne⟩ := h.2 c hc
  have hlookup : m'.lookup c.1 = c.2 := by
    have := hread (BitVec.ofNat 16 c.1)
    rw [Memory.read, Memory.read, BitVec.toNat_ofNat, Nat.mod_eq_of_lt haddr, lookup_of_mem h hc] at this
    exact this.symm
  have hmem := mem_of_lookup_ne_zero (m := m') (k := c.1) (hlookup ▸ hne)
  rwa [hlookup] at hmem

/-- Settles O10: the two lists have the same cells, and both are sorted by address. -/
theorem canonicalMemoryIsDetermined : Obligations.CanonicalMemoryIsDetermined := by
  intro m m' h h' hread
  have hirrefl : Std.Irrefl fun c d : Cell => c.1 < d.1 := ⟨fun _ => lt_irrefl _⟩
  have hantisymm : Std.Antisymm fun c d : Cell => c.1 < d.1 := ⟨fun _ _ hcd hdc => absurd hcd hdc.asymm⟩
  exact List.Subset.antisymm_of_pairwise h.1 h'.1 (subset_of_read_eq h hread)
    (subset_of_read_eq h' fun a => (hread a).symm)

/-! The loader (20_memory.md R41, R52). -/

/-- Going one address on and then `k` is going `k + 1` on, with wrapping (R41). -/
theorem add_one_add_ofNat (a : Word) (k : Nat) : a + 1 + BitVec.ofNat 16 k = a + BitVec.ofNat 16 (k + 1) := by
  rw [BitVec.ofNat_add, BitVec.add_assoc, BitVec.add_comm 1]
  rfl

/-- The loader leaves every address alone that no word of the image goes to. -/
theorem read_writeWords_outside {ws : List Word} {a b : Word}
    (h : ∀ i, i < ws.length → b ≠ a + BitVec.ofNat 16 i) (m : Memory) : (m.writeWords a ws).read b = m.read b := by
  induction ws generalizing m a with
  | nil => rfl
  | cons w rest ih =>
    have hrest (i : Nat) (hi : i < rest.length) : b ≠ a + 1 + BitVec.ofNat 16 i := by
      rw [add_one_add_ofNat]
      exact h (i + 1) (Nat.succ_lt_succ hi)
    have hhead : b ≠ a := by simpa using h 0 (Nat.succ_pos _)
    exact (ih hrest _).trans (Memory.read_write_other m w hhead)

/-- Word `i` of an image that does not run over itself stands `i` addresses on. -/
theorem getElem?_eq_read_writeWords {ws : List Word} (hlen : ws.length ≤ 65536) {i : Nat} (hi : i < ws.length)
    (m : Memory) (a : Word) : ws[i]? = some ((m.writeWords a ws).read (a + BitVec.ofNat 16 i)) := by
  induction ws generalizing m a i with
  | nil => exact absurd hi (Nat.not_lt_zero i)
  | cons w rest ih =>
    rw [List.length_cons] at hlen hi
    cases i with
    | zero =>
      have hother (k : Nat) (hk : k < rest.length) : a + BitVec.ofNat 16 0 ≠ a + 1 + BitVec.ofNat 16 k := by
        rw [add_one_add_ofNat]
        intro he
        have := congrArg BitVec.toNat (BitVec.add_right_inj a |>.mp he)
        simp only [BitVec.toNat_ofNat] at this
        omega
      have hread : ((m.write a w).writeWords (a + 1) rest).read (a + BitVec.ofNat 16 0) = w := by
        rw [read_writeWords_outside hother, show a + BitVec.ofNat 16 0 = a from BitVec.add_zero a,
          Memory.read_write_same]
      exact congrArg some hread.symm
    | succ k =>
      rw [List.getElem?_cons_succ, ← add_one_add_ofNat]
      exact ih (by omega) (by omega) (m.write a w) (a + 1)

/-- Settles O13: the image goes from the origin on, and at most 0xD000 words reach no address below it. -/
theorem loaderWritesImageAtOrigin : Obligations.LoaderWritesImageAtOrigin := by
  intro image s hrun hlen
  have hload : hostMove (.load image) s = .next { s with mem := s.mem.writeWords origin image } := by
    simp only [hostMove, loadImage, hrun, Bool.false_eq_true, if_false, maxImageWords, if_neg (Nat.not_lt.mpr hlen)]
  refine ⟨_, hload, fun i hi => getElem?_eq_read_writeWords (by omega) hi s.mem origin, fun a ha => ?_, rfl⟩
  refine read_writeWords_outside (fun i hi he => ?_) s.mem
  have haddr : a.toNat = 0x3000 + i := by
    rw [he, BitVec.toNat_add, BitVec.toNat_ofNat, show origin.toNat = 0x3000 from rfl]
    omega
  omega

end Sys2Proof.Proofs.MemoryImage
end

section
namespace Sys2Proof.Proofs.Instructions

open Sys2Proof Sys2Proof.Machine Sys2Proof.Proofs.AluFlags Sys2Proof.Proofs.Decoder

/-- The sign bit of a word, as a bound on its value (30_encoding.md R63). -/
theorem getLsbD_fifteen_iff (v : Word) : v.getLsbD 15 = true ↔ 0x8000 ≤ v.toNat := by
  rw [← BitVec.msb_eq_getLsbD_last v, BitVec.msb_eq_decide, decide_eq_true_eq]

/-- Settles O8: the zero test, then the sign bit. -/
theorem flagFunctionByRange : Obligations.FlagFunctionByRange := by
  intro v
  have hzero : v = 0 ↔ v.toNat = 0 := BitVec.toNat_inj.symm
  have hsign := getLsbD_fifteen_iff v
  refine ⟨fun h => ?_, fun h1 h2 => ?_, fun h => ?_⟩
  · exact if_pos (hzero.mpr h)
  · rw [flagsOf, if_neg (hzero.not.mpr (by omega)), if_neg (hsign.not.mpr (by omega))]
    rfl
  · rw [flagsOf, if_neg (hzero.not.mpr (by omega)), if_pos (hsign.mpr h)]
    rfl

/-! ADD, AND, NOT, LD, LDI, LDR, LEA (41_alu_flags.md, 42_load_store.md): each ends in the write of one destination,
so the frame is that of `writeDest`. -/

/-- Settles O17: the word decodes to the register form, which writes the sum to `dr`. -/
theorem addRegisterForm : Obligations.AddRegisterForm := by
  intro dr sr1 sr2 x s
  have hsum := State.readReg_writeDest_same s dr (s.readReg sr1 + s.readReg sr2)
  exact ⟨decode_fmtReg_add rfl dr sr1 sr2 x, _, rfl, hsum, (congrArg BitVec.toNat hsum).trans (BitVec.toNat_add ..),
    writeDest_cond_eq_flagsOf_readReg .., writeDest_frame ..⟩

/-- Settles O19: the word decodes to the register form, which writes the conjunction to `dr`. -/
theorem andRegisterForm : Obligations.AndRegisterForm :=
  fun dr sr1 sr2 x s => ⟨decode_fmtReg_and rfl dr sr1 sr2 x, s.writeDest dr (s.readReg sr1 &&& s.readReg sr2), rfl,
    State.readReg_writeDest_same .., writeDest_cond_eq_flagsOf_readReg .., writeDest_frame ..⟩

/-- Settles O20: the word decodes to the immediate form, which writes the conjunction to `dr`. -/
theorem andImmediateForm : Obligations.AndImmediateForm :=
  fun dr sr1 imm s => ⟨decode_fmtImm5_and rfl dr sr1 imm, s.writeDest dr (s.readReg sr1 &&& imm.signExtend 16), rfl,
    State.readReg_writeDest_same .., writeDest_cond_eq_flagsOf_readReg .., writeDest_frame ..⟩

/-- Settles O21: the word decodes to NOT, which writes the complement to `dr`. -/
theorem notComplementsRegister : Obligations.NotComplementsRegister := by
  intro dr sr1 x s
  have hnot := State.readReg_writeDest_same s dr (~~~ s.readReg sr1)
  exact ⟨decode_fmtOff6_not rfl dr sr1 x, _, rfl, hnot, (congrArg BitVec.toNat hnot).trans BitVec.toNat_not,
    writeDest_cond_eq_flagsOf_readReg .., writeDest_frame ..⟩

/-- Settles O22: the word decodes to LD, which writes the word at the effective address to `dr`. -/
theorem ldLoadsPcRelative : Obligations.LdLoadsPcRelative :=
  fun dr off s => ⟨decode_fmtOff9_ld rfl dr off, s.writeDest dr (s.readMem (eaPc s off)), rfl,
    State.readReg_writeDest_same .., writeDest_cond_eq_flagsOf_readReg .., writeDest_frame ..⟩

/-- Settles O23: the word decodes to LDI, which writes the word behind the pointer to `dr`. -/
theorem ldiLoadsThroughPointer : Obligations.LdiLoadsThroughPointer :=
  fun dr off s => ⟨decode_fmtOff9_ldi rfl dr off, s.writeDest dr (s.readMem (eaInd s off)), rfl,
    State.readReg_writeDest_same .., writeDest_cond_eq_flagsOf_readReg .., writeDest_frame ..⟩

/-- Settles O24: the word decodes to LDR, which writes the word at base plus offset to `dr`. -/
theorem ldrLoadsBasePlusOffset : Obligations.LdrLoadsBasePlusOffset :=
  fun dr base off s => ⟨decode_fmtOff6_ldr rfl dr base off, s.writeDest dr (s.readMem (eaBase s base off)), rfl,
    State.readReg_writeDest_same .., writeDest_cond_eq_flagsOf_readReg .., writeDest_frame ..⟩

/-- Settles O25: the word decodes to LEA, which writes the effective address itself to `dr`. -/
theorem leaGivesAddressAndFlags : Obligations.LeaGivesAddressAndFlags :=
  fun dr off s => ⟨decode_fmtOff9_lea rfl dr off, rfl, s.writeDest dr (eaPc s off), rfl,
    State.readReg_writeDest_same .., writeDest_cond_eq_flagsOf_readReg .., writeDest_frame ..⟩

/-! ST, STI, STR (42_load_store.md): each is one write of memory. -/

/-- What a store leaves alone: everything but the one word. -/
theorem writeMem_frame (s : State) (a v : Word) :
    sameMemBut a s (s.writeMem a v) ∧ sameRegsBut [] s (s.writeMem a v) ∧ (s.writeMem a v).cond = s.cond ∧
      (s.writeMem a v).pc = s.pc ∧ sameControl s (s.writeMem a v) ∧ sameHost s (s.writeMem a v) :=
  ⟨fun _ hb => State.readMem_writeMem_other s v hb, fun r _ => State.readReg_of_regs (State.writeMem_regs s a v) r,
    rfl, rfl, ⟨rfl, rfl, rfl⟩, ⟨rfl, rfl, rfl⟩, rfl⟩

/-- Settles O26: the word decodes to ST, which writes `sr` at the effective address. -/
theorem stStoresPcRelative : Obligations.StStoresPcRelative :=
  fun sr off s => ⟨decode_fmtOff9_st rfl sr off, s.writeMem (eaPc s off) (s.readReg sr), rfl,
    State.readMem_writeMem_same .., writeMem_frame ..⟩

/-- Settles O27: the word decodes to STI, which writes `sr` where the pointer read before points to. -/
theorem stiStoresThroughPointer : Obligations.StiStoresThroughPointer :=
  fun sr off s => ⟨decode_fmtOff9_sti rfl sr off, s.writeMem (eaInd s off) (s.readReg sr), rfl,
    State.readMem_writeMem_same .., writeMem_frame ..⟩

/-- Settles O28: the word decodes to STR, which writes `sr` at base plus offset. -/
theorem strStoresBasePlusOffset : Obligations.StrStoresBasePlusOffset :=
  fun sr base off s => ⟨decode_fmtOff6_str rfl sr base off, s.writeMem (eaBase s base off) (s.readReg sr), rfl,
    State.readMem_writeMem_same .., writeMem_frame ..⟩

/-! BR, JMP, JSR, JSRR, RTI, RES (43_control.md). -/

/-- What a jump leaves alone: everything but the PC. -/
theorem setPc_frame (s : State) (v : Word) :
    sameRegsBut [] s (s.setPc v) ∧ (s.setPc v).cond = s.cond ∧ sameMem s (s.setPc v) ∧ sameControl s (s.setPc v) ∧
      sameHost s (s.setPc v) :=
  ⟨fun r _ => State.readReg_of_regs (State.setPc_regs s v) r, rfl, State.readMem_of_mem (State.setPc_mem s v),
    ⟨rfl, rfl, rfl⟩, ⟨rfl, rfl, rfl⟩, rfl⟩

/-- A jump to the PC is no jump. -/
theorem setPc_self (s : State) : s.setPc s.pc = s := rfl

/-- BR is a jump either way: to the effective address, or to the PC as it was (R150). -/
theorem exec_br (nzp : BitVec 3) (off : BitVec 9) (s : State) :
    exec (.br nzp off) s = .next (s.setPc (if s.cond &&& nzp ≠ 0 then eaPc s off else s.pc)) := by
  have htaken : branchTaken s.cond nzp = true ↔ s.cond &&& nzp ≠ 0 := bne_iff_ne
  by_cases h : s.cond &&& nzp ≠ 0
  · rw [if_pos h]
    exact congrArg Host.Outcome.next (if_pos (htaken.mpr h))
  · rw [if_neg h]
    exact congrArg Host.Outcome.next ((if_neg (htaken.not.mpr h)).trans (setPc_self s).symm)

/-- With a legal COND a branch is taken by the condition bit of the one flag that is set (R150; values D3). -/
theorem cond_meets_nzp_iff (cond nzp : BitVec 3) (h : condLegal cond) : cond &&& nzp ≠ 0 ↔
    (nzp.getLsbD 2 = true ∧ cond = 0b100) ∨ (nzp.getLsbD 1 = true ∧ cond = 0b010) ∨
      (nzp.getLsbD 0 = true ∧ cond = 0b001) := by
  revert cond nzp
  decide

/-- Settles O29: BR as a jump either way, and the truth table over the legal values of COND. -/
theorem brBranchesOnCondition : Obligations.BrBranchesOnCondition :=
  fun nzp off s => ⟨decode_fmtOff9_br rfl nzp off, _, exec_br nzp off s, rfl, cond_meets_nzp_iff s.cond nzp,
    setPc_frame ..⟩

/-- Settles O30: the word decodes to JMP, which is a jump to the base. -/
theorem jmpGoesToRegister : Obligations.JmpGoesToRegister :=
  fun base x y s => ⟨decode_fmtOff6_jmp rfl x base y, s.setPc (s.readReg base), rfl, rfl, setPc_frame ..⟩

@[simp] theorem readReg_link_r7 (s : State) : s.link.readReg .r7 = s.pc := State.readReg_writeReg_same s .r7 s.pc

theorem readReg_link_other (s : State) {r : Reg} (h : r ≠ .r7) : s.link.readReg r = s.readReg r :=
  State.readReg_writeReg_other s .r7 r s.pc h

/-- What a jump with link leaves alone: everything but R7 and the PC. -/
theorem link_setPc_frame (s : State) (v : Word) :
    sameRegsBut [.r7] s (s.link.setPc v) ∧ (s.link.setPc v).cond = s.cond ∧ sameMem s (s.link.setPc v) ∧
      sameControl s (s.link.setPc v) ∧ sameHost s (s.link.setPc v) :=
  ⟨fun _ hr => readReg_link_other s (List.ne_of_not_mem_cons hr), rfl, State.readMem_of_mem (State.link_mem s),
    ⟨rfl, rfl, rfl⟩, ⟨rfl, rfl, rfl⟩, rfl⟩

/-- The addresses that the long form of JSR reaches without the PC (R152, decision D4). -/
theorem sext_off11_range (off : BitVec 11) : (sext off).toNat ≤ 0x03FF ∨ 0xFC00 ≤ (sext off).toNat := by
  have hlt := off.isLt
  rw [Encoding.toNat_sext off (by omega)]
  split <;> omega

/-- Settles O31: the word decodes to the long form of JSR, which links and goes to the offset alone. -/
theorem jsrLongFormGoesToOffset : Obligations.JsrLongFormGoesToOffset :=
  fun off s => ⟨decode_fmtOff11_jsr rfl off,
    ⟨s.link.setPc (sext off), rfl, readReg_link_r7 s, rfl, sext_off11_range off, link_setPc_frame ..⟩, rfl⟩

/-- Settles O32: the word decodes to JSRR, which reads the base after the link, so R7 is the old PC. -/
theorem jsrrLinksThenGoesToRegister : Obligations.JsrrLinksThenGoesToRegister := by
  intro base x y s
  refine ⟨decode_fmtBase_jsrr rfl x base y, s.link.setPc (s.link.readReg base), rfl, readReg_link_r7 s,
    fun h => readReg_link_other s h, ?_, link_setPc_frame ..⟩
  rintro rfl
  exact readReg_link_r7 s

/-- Settles O33: each opcode decodes to its row whatever the low 12 bits are, and the row is its log event. -/
theorem rtiAndResOnlyLog : Obligations.RtiAndResOnlyLog :=
  fun x _ => ⟨decode_fmtNone_rti rfl x, decode_fmtNone_res rfl x, rfl, rfl⟩

end Sys2Proof.Proofs.Instructions
end

section
namespace Sys2Proof.Proofs.TrapRoutines

open Sys2Proof Sys2Proof.Machine Sys2Proof.Proofs.Encoding Sys2Proof.Proofs.Trap Sys2Proof.Proofs.AluFlags

/-! The register file after the two input routines (44_trap.md R171, R177). -/

/-- Holding a step that is held already changes nothing. -/
theorem hold_of_pending {s : State} {p : Pending} (h : s.pending = some p) : s.hold p = s := by
  rw [State.hold, ← h]

theorem toNat_zext_byte (b : Byte) : (zext b).toNat = b.toNat := BitVec.toNat_setWidth_of_le (by omega)

/-- A byte zero-extended is the byte below a zero byte. -/
theorem zext_byte (b : Byte) : zext b = (0x00#8 ++ b : BitVec (8 + 8)) := by
  apply BitVec.eq_of_toNat_eq
  rw [toNat_zext_byte, BitVec.toNat_append]
  simp

/-- With a byte ready GETC takes it into R0 and completes. -/
theorem trapGetc_of_answer {s : State} {b : Byte} {rest : List Byte} (h : s.byteAnswers = b :: rest) :
    (trapGetc s).readReg .r0 = zext b ∧ (trapGetc s).byteAnswers = rest ∧ (trapGetc s).pending = none := by
  rw [trapGetc_take s h]
  exact ⟨State.readReg_writeReg_same s.complete .r0 (zext b), rfl, rfl⟩

/-- With a line outcome ready INU16 takes its value, if it has one, into R0 and completes. -/
theorem trapInu16_of_answer {s : State} {r : Option Word} {rest : List (Option Word)} (h : s.lineAnswers = r :: rest) :
    (trapInu16 s).readReg .r0 = r.getD (s.readReg .r0) ∧ (trapInu16 s).lineAnswers = rest ∧
      (trapInu16 s).pending = none := by
  cases r with
  | some v =>
    rw [trapInu16_some s h]
    exact ⟨State.readReg_writeReg_same s.complete .r0 v, rfl, rfl⟩
  | none =>
    rw [trapInu16_none s h]
    exact ⟨rfl, rfl, rfl⟩

/-- INU16 logs a line that does not parse and nothing else (R177). -/
theorem trapInu16_observer (s : State) :
    (trapInu16 s).observer = s.observer ++ (logged .inu16 s).map .log := by
  obtain ⟨hl, h⟩ | ⟨v, rest, hl, h⟩ | ⟨rest, hl, h⟩ := trapInu16_cases s <;> rw [h] <;> simp [logged, hl]

/-- GETC writes no register but R0. -/
theorem readReg_trapGetc_other (s : State) {r : Reg} (hr : r ≠ .r0) : (trapGetc s).readReg r = s.readReg r := by
  obtain ⟨-, h⟩ | ⟨b, rest, -, h⟩ := trapGetc_cases s <;> rw [h]
  · rfl
  · exact State.readReg_writeReg_other s.complete .r0 r (zext b) hr

/-- INU16 writes no register but R0. -/
theorem readReg_trapInu16_other (s : State) {r : Reg} (hr : r ≠ .r0) : (trapInu16 s).readReg r = s.readReg r := by
  obtain ⟨-, h⟩ | ⟨v, rest, -, h⟩ | ⟨rest, -, h⟩ := trapInu16_cases s <;> rw [h]
  · rfl
  · exact State.readReg_writeReg_other s.complete .r0 r v hr
  · rfl

/-- Settles O34: GETC with a byte ready, and the hold without one. -/
theorem getcReadsOneByte : Obligations.GetcReadsOneByte := by
  intro x s
  refine ⟨decode_fmtTrap x 0x20, fun b rest hb => ?_, fun hnone => congrArg Host.Outcome.next (trapGetc_hold s hnone)⟩
  obtain ⟨hr0, hrest, hpend⟩ := trapGetc_of_answer hb
  exact ⟨trapGetc s, rfl, hr0.trans (zext_byte b), hrest, hpend,
    fun r hr => readReg_trapGetc_other s (List.ne_of_not_mem_cons hr), trapGetc_cond s, trapGetc_pc s,
    State.readMem_of_mem (trapGetc_mem s), trapGetc_run s, trapGetc_halted s, trapGetc_lineAnswers s, trapGetc_out s,
    trapGetc_observer s⟩

/-- Settles O40: INU16 with a line that parses, with one that does not, and the hold without a line. -/
theorem inu16ReadsOneLine : Obligations.Inu16ReadsOneLine := by
  intro x s
  refine ⟨decode_fmtTrap x 0x26, fun v rest hv => ?_, fun rest hnone => ?_,
    fun hempty => congrArg Host.Outcome.next (trapInu16_hold s hempty)⟩
  · obtain ⟨hr0, hrest, hpend⟩ := trapInu16_of_answer hv
    have hobs : (trapInu16 s).observer = s.observer := by simp [trapInu16_observer, logged, hv]
    exact ⟨trapInu16 s, rfl, hr0, fun r hr => readReg_trapInu16_other s (List.ne_of_not_mem_cons hr), hrest, hpend,
      trapInu16_cond s, trapInu16_pc s, State.readMem_of_mem (trapInu16_mem s), trapInu16_run s, trapInu16_halted s,
      trapInu16_byteAnswers s, trapInu16_out s, hobs⟩
  · obtain ⟨hr0, hrest, hpend⟩ := trapInu16_of_answer hnone
    have hobs : (trapInu16 s).observer = s.observer ++ [.log .hexParseFailure] := by
      simp [trapInu16_observer, logged, hnone]
    have hregs (r : Reg) : (trapInu16 s).readReg r = s.readReg r := by
      by_cases hr : r = .r0
      · exact hr ▸ hr0
      · exact readReg_trapInu16_other s hr
    exact ⟨trapInu16 s, rfl, fun r _ => hregs r, hrest, hpend, trapInu16_cond s, trapInu16_pc s,
      State.readMem_of_mem (trapInu16_mem s), trapInu16_run s, trapInu16_halted s, trapInu16_byteAnswers s,
      trapInu16_out s, hobs⟩

/-- Settles O36: the loop of PUTS up to the zero word, and over a memory without one. -/
theorem putsWritesStringUpToZero : Obligations.PutsWritesStringUpToZero := by
  intro x s
  refine ⟨decode_fmtTrap x 0x22, fun n hn hne hz => ?_, fun hne => ?_⟩
  · have hscan := scanString_eq_some s.mem hn hne hz
    exact ⟨_, congrArg Host.Outcome.next (trapPuts_some s hscan), rfl, rfl, rfl⟩
  · exact congrArg Host.Outcome.next (trapPuts_none s (scanString_eq_none hne memWords _))

/-- Settles O37: the PUTS taken up again holds again. -/
theorem putsWithoutZeroNeverCompletes : Obligations.PutsWithoutZeroNeverCompletes := by
  intro s hrun hpend hne
  have hresume : resume .putsLoop s = s :=
    (trapPuts_none s (scanString_eq_none hne memWords _)).trans (hold_of_pending hpend)
  rw [step_resume hrun hpend, hresume]

/-- A step that fetches a HALT. -/
theorem step_of_fetch_halt {s : State} (hrun : s.run = true) (hpend : s.pending = none)
    (hdec : decode (fetchWord s) = .halt) : step s = .next (trapHalt s.afterFetch) := by
  rw [step_fetch hrun hpend, hdec]
  rfl

/-- Settles O39: HALT clears RUN, and a machine that does not run is idle. -/
theorem haltStopsTheMachine : Obligations.HaltStopsTheMachine := by
  intro s
  refine ⟨⟨trapHalt s, rfl, rfl, rfl, fun r _ => State.readReg_of_regs rfl r, rfl, rfl, State.readMem_of_mem rfl, rfl,
    ⟨rfl, rfl, rfl⟩, rfl⟩, fun x hrun hpend hword => ?_⟩
  have hdec : decode (fetchWord s) = .halt := (congrArg decode hword).trans (decode_fmtTrap x 0x25)
  exact ⟨_, step_of_fetch_halt hrun hpend hdec, rfl, rfl, fun r _ => State.readReg_of_regs rfl r, rfl,
    State.readMem_of_mem rfl, ⟨rfl, rfl, rfl⟩, step_idle rfl⟩

/-- A held GETC holds again without a byte, and takes the byte once it is there. -/
theorem held_getc_completes {s : State} (hrun : s.run = true) (hpend : s.pending = some .inByte)
    (hempty : s.byteAnswers = []) : step s = .next s ∧
    ∀ b : Byte, ∃ u t, hostMove (.answerByte b) s = .next u ∧ step u = .next t ∧
      (t.readReg .r0).toNat = b.toNat ∧ sameRegsBut [.r0] s t ∧ t.pc = s.pc ∧ t.cond = s.cond ∧ sameMem s t ∧
      t.run = true ∧ t.pending = none ∧ sameHost s t := by
  refine ⟨?_, fun b => ?_⟩
  · rw [step_resume hrun hpend]
    exact congrArg Host.Outcome.next ((trapGetc_hold s hempty).trans (hold_of_pending hpend))
  · let u : State := { s with byteAnswers := s.byteAnswers ++ [b] }
    obtain ⟨hr0, hrest, hdone⟩ := trapGetc_of_answer (s := u) (congrArg (· ++ [b]) hempty)
    exact ⟨u, trapGetc u, rfl, step_resume (s := u) hrun hpend, hr0 ▸ toNat_zext_byte b,
      fun r hr => readReg_trapGetc_other u (List.ne_of_not_mem_cons hr), trapGetc_pc u, trapGetc_cond u,
      State.readMem_of_mem (trapGetc_mem u), (trapGetc_run u).trans hrun, hdone,
      ⟨hrest.trans hempty.symm, trapGetc_lineAnswers u, trapGetc_out u⟩, trapGetc_observer u⟩

/-- A held INU16 holds again without a line, and takes the line once it is there. -/
theorem held_inu16_completes {s : State} (hrun : s.run = true) (hpend : s.pending = some .inLine)
    (hempty : s.lineAnswers = []) : step s = .next s ∧
    ∀ r : Option Word, ∃ u t, hostMove (.answerLine r) s = .next u ∧ step u = .next t ∧
      t.readReg .r0 = r.getD (s.readReg .r0) ∧ sameRegsBut [.r0] s t ∧ t.pc = s.pc ∧ t.cond = s.cond ∧
      sameMem s t ∧ t.run = true ∧ t.pending = none ∧ sameConsole s t := by
  refine ⟨?_, fun r => ?_⟩
  · rw [step_resume hrun hpend]
    exact congrArg Host.Outcome.next ((trapInu16_hold s hempty).trans (hold_of_pending hpend))
  · let u : State := { s with lineAnswers := s.lineAnswers ++ [r] }
    obtain ⟨hr0, hrest, hdone⟩ := trapInu16_of_answer (s := u) (congrArg (· ++ [r]) hempty)
    exact ⟨u, trapInu16 u, rfl, step_resume (s := u) hrun hpend, hr0,
      fun q hq => readReg_trapInu16_other u (List.ne_of_not_mem_cons hq), trapInu16_pc u, trapInu16_cond u,
      State.readMem_of_mem (trapInu16_mem u), (trapInu16_run u).trans hrun, hdone, trapInu16_byteAnswers u,
      hrest.trans hempty.symm, trapInu16_out u⟩

/-- Settles O42: the held GETC and the held INU16. -/
theorem heldInputCompletesOnAnswer : Obligations.HeldInputCompletesOnAnswer :=
  fun _ hrun => ⟨held_getc_completes hrun, held_inu16_completes hrun⟩

end Sys2Proof.Proofs.TrapRoutines
end

section
namespace Sys2Proof.Proofs.Frames

open Sys2Proof Sys2Proof.Machine Sys2Proof.Proofs.Decoder Sys2Proof.Proofs.AluFlags Sys2Proof.Proofs.Trap
  Sys2Proof.Proofs.Instructions Sys2Proof.Proofs.TrapRoutines

/-! The outcome of a step (40_fetch_decode_dispatch.md R90, R96, R99). -/

/-- Every instruction answers a next state (R99). -/
theorem exec_answers_next (i : Instr) (s : State) : ∃ t, exec i s = .next t := by
  cases i <;> exact ⟨_, rfl⟩

/-- Settles O16: each of the three ways of a step answers a next state. -/
theorem everyStepAndInstructionAnswersNext : Obligations.EveryStepAndInstructionAnswersNext := by
  refine ⟨fun s => ?_, exec_answers_next⟩
  cases hrun : s.run with
  | false => exact ⟨s, step_idle hrun⟩
  | true =>
    cases hpend : s.pending with
    | some p => exact ⟨resume p s, step_resume hrun hpend⟩
    | none => exact step_fetch hrun hpend ▸ exec_answers_next _ _

/-- Settles O15: a machine that does not run is idle. -/
theorem idleMachineChangesNothing : Obligations.IdleMachineChangesNothing := fun _ hrun => step_idle hrun

/-- The trace record names the handler of the decoded instruction (R95). -/
theorem traceOf_eq (s : State) : traceOf s =
    { addr := s.pc, cond := s.cond, regs := s.regs, ir := s.readMem s.pc,
      name := (decode (s.readMem s.pc)).handler } := by
  rw [handler_decode]
  rfl

/-- Settles O14: the state after the fetch, with the name of the record read off the decoded instruction. -/
theorem stepRunsDecodedInstruction : Obligations.StepRunsDecodedInstruction := by
  intro s hrun hpend
  rw [step_fetch hrun hpend, ← traceOf_eq]
  rfl

/-! The instructions of the TRAP opcode, by their vector (44_trap.md R170). -/

/-- A well-formed instruction of the TRAP opcode is the row that the routine table answers. -/
theorem eq_decodeTrap_of_trapVector {i : Instr} {vec : BitVec 8} (hwf : i.wellFormed = true)
    (hv : trapVector i = some vec) : i = decodeTrap vec := by
  cases i <;> cases hv
  case trap => exact (decodeTrap_of_generic hwf).symm
  all_goals rfl

theorem mayWriteRegs_of_trapVector {i : Instr} {vec : BitVec 8} (hv : trapVector i = some vec) :
    mayWriteRegs i = mayWriteRegs (.trap vec) := by
  cases i <;> cases hv <;> rfl

theorem transactions_of_trapVector {i : Instr} {vec : BitVec 8} (s : State) (hv : trapVector i = some vec) :
    transactions i s = trapTransactions vec s := by
  cases i <;> cases hv <;> rfl

theorem handler_of_trapVector {i : Instr} {vec : BitVec 8} (hv : trapVector i = some vec) : i.handler = .trap := by
  cases i <;> cases hv <;> rfl

theorem exists_trapVector_of_handler {i : Instr} (h : i.handler = .trap) : ∃ vec, trapVector i = some vec := by
  cases i <;> cases h <;> exact ⟨_, rfl⟩

/-- No routine writes memory (R180). -/
@[simp] theorem trapDispatch_mem (vec : BitVec 8) (s : State) : (trapDispatch vec s).mem = s.mem := by
  obtain ⟨-, h⟩ | ⟨-, h⟩ | ⟨-, h⟩ | ⟨-, h⟩ | ⟨-, h⟩ | ⟨-, h⟩ | ⟨-, -, -, -, -, -, h⟩ := trapDispatch_cases s vec <;>
    rw [h]
  · exact trapGetc_mem s
  · exact State.consoleOut_mem ..
  · exact trapPuts_mem s
  · rfl -- HALT
  · exact trapInu16_mem s
  · exact State.consoleOut_mem ..
  · exact State.logEvent_mem ..

/-- No routine goes anywhere (R180, R204). -/
@[simp] theorem trapDispatch_pc (vec : BitVec 8) (s : State) : (trapDispatch vec s).pc = s.pc := by
  obtain ⟨-, h⟩ | ⟨-, h⟩ | ⟨-, h⟩ | ⟨-, h⟩ | ⟨-, h⟩ | ⟨-, h⟩ | ⟨-, -, -, -, -, -, h⟩ := trapDispatch_cases s vec <;>
    rw [h]
  · exact trapGetc_pc s
  · exact State.consoleOut_pc ..
  · exact trapPuts_pc s
  · rfl -- HALT
  · exact trapInu16_pc s
  · exact State.consoleOut_pc ..
  · exact State.logEvent_pc ..

/-- A routine leaves RUN and the halted mark alone, or is HALT. -/
theorem trapDispatch_control (vec : BitVec 8) (s : State) :
    ((trapDispatch vec s).run = s.run ∧ (trapDispatch vec s).halted = s.halted) ∨
      (vec = 0x25 ∧ trapDispatch vec s = trapHalt s) := by
  obtain ⟨-, h⟩ | ⟨-, h⟩ | ⟨-, h⟩ | ⟨hv, h⟩ | ⟨-, h⟩ | ⟨-, h⟩ | ⟨-, -, -, -, -, -, h⟩ := trapDispatch_cases s vec <;>
    rw [h]
  · exact .inl ⟨trapGetc_run s, trapGetc_halted s⟩
  · exact .inl ⟨rfl, rfl⟩
  · exact .inl ⟨trapPuts_run s, trapPuts_halted s⟩
  · exact .inr ⟨hv, rfl⟩
  · exact .inl ⟨trapInu16_run s, trapInu16_halted s⟩
  · exact .inl ⟨rfl, rfl⟩
  · exact .inl ⟨rfl, rfl⟩

/-- A routine writes no register but R0, and R0 only if it is GETC or INU16 (R180). -/
theorem readReg_trapDispatch {vec : BitVec 8} {r : Reg} (hr : r ∉ mayWriteRegs (.trap vec)) (s : State) :
    (trapDispatch vec s).readReg r = s.readReg r := by
  obtain ⟨rfl, h⟩ | ⟨-, h⟩ | ⟨-, h⟩ | ⟨-, h⟩ | ⟨rfl, h⟩ | ⟨-, h⟩ | ⟨-, -, -, -, -, -, h⟩ := trapDispatch_cases s vec <;>
    rw [h]
  · exact readReg_trapGetc_other s (List.ne_of_not_mem_cons hr)
  · rfl
  · exact State.readReg_of_regs (trapPuts_regs s) r
  · rfl
  · exact readReg_trapInu16_other s (List.ne_of_not_mem_cons hr)
  · rfl
  · rfl

/-- Taking a routine up again writes no register but R0, and PUTS not even that (R180). -/
theorem readReg_resume {p : Pending} {r : Reg} (h : r ≠ .r0 ∨ p = .putsLoop) (s : State) :
    (resume p s).readReg r = s.readReg r := by
  cases p with
  | inByte => exact readReg_trapGetc_other s (h.resolve_right (by decide))
  | inLine => exact readReg_trapInu16_other s (h.resolve_right (by decide))
  | putsLoop => exact State.readReg_of_regs (trapPuts_regs s) r

theorem mem_mayWriteRegs_trap {vec : BitVec 8} {r : Reg} (h : r ∈ mayWriteRegs (.trap vec)) :
    r = .r0 ∧ (vec = 0x20 ∨ vec = 0x26) := by
  simp only [mayWriteRegs] at h
  split at h
  case isTrue hvec => exact ⟨List.mem_singleton.mp h, hvec⟩
  case isFalse => cases h

/-- Settles O43: the frame of the dispatch, and that of the routines taken up again. -/
theorem trapWritesOnlyR0AndRun : Obligations.TrapWritesOnlyR0AndRun := by
  constructor
  · intro i vec s t hv h
    obtain rfl : trapDispatch vec s = t := Host.Outcome.next.inj ((exec_of_trapVector s hv).symm.trans h)
    refine ⟨fun r hr => readReg_trapDispatch (fun hmem => hr ?_) s, trapDispatch_cond vec s,
      State.readMem_of_mem (trapDispatch_mem vec s), trapDispatch_pc vec s, fun h20 h26 => ?_, fun h25 => ?_⟩
    · exact List.mem_singleton.mpr (mem_mayWriteRegs_trap hmem).1
    · exact readReg_trapDispatch (fun hmem => (mem_mayWriteRegs_trap hmem).2.elim h20 h26) s
    · exact (trapDispatch_control vec s).elim (fun hctl => hctl.1) fun hhalt => absurd hhalt.1 h25
  · intro p s t hrun hpend h
    obtain rfl : resume p s = t := Host.Outcome.next.inj ((step_resume hrun hpend).symm.trans h)
    obtain ⟨hpc, hcond, hmem, hr, -⟩ := resume_keeps p s
    exact ⟨fun r hr => readReg_resume (.inl (List.ne_of_not_mem_cons hr)) s, hcond, State.readMem_of_mem hmem, hpc, hr,
      fun hp => readReg_resume (.inr hp) s⟩

/-! RUN and the halted mark (R97, R176). -/

/-- An instruction leaves RUN and the halted mark alone, or is HALT. -/
theorem exec_control {i : Instr} {s t : State} (h : exec i s = .next t) :
    (t.run = s.run ∧ t.halted = s.halted) ∨ (trapVector i = some 0x25 ∧ t = trapHalt s) := by
  obtain ⟨dr, v, -, rfl⟩ | ⟨-, -, a, v, rfl⟩ | ⟨-, -, rfl | ⟨v, rfl⟩⟩ | ⟨-, -, v, rfl⟩ | ⟨-, -, rfl⟩ |
    ⟨-, -, vec, hv, rfl⟩ := exec_cases h
  case inr.inr.inr.inr.inr =>
    obtain hctl | ⟨rfl, hhalt⟩ := trapDispatch_control vec s
    · exact .inl hctl
    · exact .inr ⟨hv, hhalt⟩
  all_goals exact .inl ⟨rfl, rfl⟩

/-- Settles O49: HALT is the one instruction that clears RUN, and a step taken up again keeps it. -/
theorem onlyHaltClearsRun : Obligations.OnlyHaltClearsRun := by
  intro s t h hrun
  obtain ⟨hidle, -⟩ | ⟨-, p, hpend, rfl⟩ | ⟨-, hpend, hexec⟩ := step_cases h
  · exact absurd hrun (by simp [hidle])
  · obtain ⟨-, -, -, hr, -⟩ := resume_keeps p s
    simp [hr, hrun, hpend]
  · constructor
    · intro hstop
      obtain ⟨hr, -⟩ | ⟨hv, -⟩ := exec_control hexec
      · exact absurd (hstop.symm.trans (hr.trans hrun)) (by decide)
      · exact ⟨hpend, eq_decodeTrap_of_trapVector (decodedIsWellFormed _) hv⟩
    · rintro ⟨-, hdec⟩
      obtain rfl := Host.Outcome.next.inj (h.symm.trans (step_of_fetch_halt hrun hpend hdec))
      rfl

/-! COND (10_state.md R17). -/

/-- The flag function gives exactly one flag (R111). -/
theorem condOneHot_flagsOf (v : Word) : condOneHot (flagsOf v) := by
  unfold flagsOf
  split
  · exact .inr (.inl rfl)
  · split
    · exact .inr (.inr rfl)
    · exact .inl rfl

/-- An instruction leaves COND alone or makes it one-hot, and a flag-updating one does the latter (R112). -/
theorem exec_cond_cases {i : Instr} {s t : State} (h : exec i s = .next t) :
    ((flagDest i).isSome = true ∧ condOneHot t.cond) ∨ (flagDest i = none ∧ t.cond = s.cond) := by
  cases hd : flagDest i with
  | some dr => exact .inl ⟨rfl, exec_cond_of_flagDest h hd ▸ condOneHot_flagsOf _⟩
  | none => exact .inr ⟨rfl, exec_cond_of_flagDest_none h hd⟩

/-- Settles O52: a step keeps COND, or executes a flag-updating instruction and makes it one-hot. -/
theorem condIsOneHotAfterFlagUpdate : Obligations.CondIsOneHotAfterFlagUpdate := by
  intro s t h
  obtain ⟨hidle, rfl⟩ | ⟨-, p, hpend, rfl⟩ | ⟨-, -, hexec⟩ := step_cases h
  · exact ⟨id, id, fun hrun => absurd hrun (by simp [hidle])⟩
  · obtain ⟨-, hcond, -⟩ := resume_keeps p s
    exact ⟨hcond ▸ id, hcond ▸ id, fun _ hnone => absurd hnone (by simp [hpend])⟩
  · obtain ⟨-, hhot⟩ | ⟨hnone, hcond⟩ := exec_cond_cases hexec
    · exact ⟨fun _ => .inr hhot, fun _ => hhot, fun _ _ _ => hhot⟩
    · have hcond : t.cond = s.cond := hcond
      have hnone : flagDest (decode (s.readMem s.pc)) = none := hnone
      exact ⟨hcond ▸ id, hcond ▸ id, fun _ _ hsome => absurd hsome (by simp [hnone])⟩

end Sys2Proof.Proofs.Frames
end

section
namespace Sys2Proof.Proofs.TransactionLaws

open Sys2Proof Sys2Proof.Machine Sys2Proof.Proofs.AluFlags Sys2Proof.Proofs.Trap Sys2Proof.Proofs.Instructions
  Sys2Proof.Proofs.Frames

/-! The transactions of the trap routines (20_memory.md R51, 44_trap.md R170). -/

/-- The vectors that neither GETC, PUTC, PUTS, INU16 nor OUTU16 serves have no transactions. -/
theorem trapTransactions_of_reserved {vec : BitVec 8} (h : vec.toNat ∉ [0x20, 0x21, 0x22, 0x26, 0x27]) (s : State) :
    trapTransactions vec s = [] := by
  unfold trapTransactions
  split
  case h_6 => rfl
  all_goals
    next hv =>
      rw [hv] at h
      exact absurd (by decide) h

@[simp] theorem outEvents_getcTransactions (s : State) : outEvents (getcTransactions s) = [] := by
  unfold getcTransactions
  split <;> rfl

@[simp] theorem outEvents_inu16Transactions (s : State) : outEvents (inu16Transactions s) = [] := by
  unfold inu16Transactions
  split <;> rfl

theorem outEvents_append (ts us : List Transaction) : outEvents (ts ++ us) = outEvents ts ++ outEvents us :=
  List.filterMap_append ..

theorem outEvents_map_memRead (as : List Word) : outEvents (as.map .memRead) = [] := by
  induction as with
  | nil => rfl
  | cons a as ih => exact ih

/-- What PUTS sends is the one event among its transactions. -/
theorem trapPuts_out (s : State) : (trapPuts s).out = s.out ++ outEvents (putsTransactions s) := by
  obtain ⟨hscan, h⟩ | ⟨ws, hscan, h⟩ := trapPuts_cases s <;>
    rw [h, putsTransactions, hscan, outEvents_append, outEvents_map_memRead]
  · exact (List.append_nil _).symm
  · rfl

/-- The events among the transactions of a routine are what it adds to the console output. -/
theorem trapDispatch_out (vec : BitVec 8) (s : State) :
    (trapDispatch vec s).out = s.out ++ outEvents (trapTransactions vec s) := by
  obtain ⟨rfl, h⟩ | ⟨rfl, h⟩ | ⟨rfl, h⟩ | ⟨rfl, h⟩ | ⟨rfl, h⟩ | ⟨rfl, h⟩ | ⟨h20, h21, h22, -, h26, h27, h⟩ :=
    trapDispatch_cases s vec <;> rw [h]
  · show (trapGetc s).out = s.out ++ outEvents (getcTransactions s)
    rw [trapGetc_out, outEvents_getcTransactions, List.append_nil]
  · rfl
  · exact trapPuts_out s
  · exact (List.append_nil _).symm
  · show (trapInu16 s).out = s.out ++ outEvents (inu16Transactions s)
    rw [trapInu16_out, outEvents_inu16Transactions, List.append_nil]
  · rfl
  · have hreserved : vec.toNat ∉ [0x20, 0x21, 0x22, 0x26, 0x27] := by
      simp only [List.mem_cons, List.not_mem_nil, or_false]
      bv_omega
    rw [trapTransactions_of_reserved hreserved]
    exact (List.append_nil _).symm

/-- The writes among the transactions of an instruction are what it does to memory (R51). -/
theorem exec_mem {i : Instr} {s t : State} (h : exec i s = .next t) :
    t.mem = replayWrites s.mem (transactions i s) := by
  cases hv : trapVector i with
  | some vec =>
    rw [exec_of_trapVector s hv] at h
    obtain rfl := Host.Outcome.next.inj h
    rw [trapDispatch_mem, replayWrites_of_no_write (trap_writes_nothing i s (handler_of_trapVector hv))]
  | none =>
    cases i <;> cases hv
    case none.br.refl nzp off =>
      rw [exec_br] at h
      obtain rfl := Host.Outcome.next.inj h
      rfl
    all_goals
      obtain rfl := Host.Outcome.next.inj h
      rfl

/-- The events among the transactions of an instruction are what it adds to the console output (R51). -/
theorem exec_out {i : Instr} {s t : State} (h : exec i s = .next t) :
    t.out = s.out ++ outEvents (transactions i s) := by
  cases hv : trapVector i with
  | some vec =>
    rw [exec_of_trapVector s hv] at h
    obtain rfl := Host.Outcome.next.inj h
    rw [trapDispatch_out, transactions_of_trapVector s hv]
  | none =>
    have hquiet : outEvents (transactions i s) = [] := by cases i <;> cases hv <;> rfl
    rw [hquiet, List.append_nil]
    obtain ⟨dr, v, -, rfl⟩ | ⟨-, -, a, v, rfl⟩ | ⟨-, -, rfl | ⟨v, rfl⟩⟩ | ⟨-, -, v, rfl⟩ | ⟨-, -, rfl⟩ |
      ⟨-, -, vec, hv', -⟩ := exec_cases h
    case inr.inr.inr.inr.inr => cases hv'.symm.trans hv
    all_goals rfl

/-- Settles O46: memory by the writes, output by the events. -/
theorem transactionsTellMemoryAndOutput : Obligations.TransactionsTellMemoryAndOutput :=
  fun _ _ _ h => ⟨exec_mem h, exec_out h⟩

/-! How many transactions there are (20_memory.md R42). -/

/-- Only ST, STI and STR write, one word each. -/
theorem countP_isWrite_transactions (i : Instr) (s : State) :
    (transactions i s).countP Transaction.isWrite = if i.handler ∈ [.st, .sti, .str] then 1 else 0 := by
  cases hv : trapVector i with
  | some vec =>
    have htrap := handler_of_trapVector hv
    rw [trap_writes_nothing i s htrap, htrap]
    rfl
  | none => cases i <;> cases hv <;> rfl

/-- GETC and INU16 read no memory. -/
theorem countP_isRead_console (s : State) : (getcTransactions s).countP Transaction.isRead = 0 ∧
    (inu16Transactions s).countP Transaction.isRead = 0 := by
  constructor
  · unfold getcTransactions
    split <;> rfl
  · unfold inu16Transactions
    split <;> rfl

/-- LDI reads two words, LD, LDR and STI one, the others but PUTS none. -/
theorem countP_isRead_transactions {i : Instr} (hwf : i.wellFormed = true) (hputs : i ≠ .puts) (s : State) :
    (transactions i s).countP Transaction.isRead =
      if i.handler = .ldi then 2 else if i.handler ∈ [.ld, .ldr, .sti] then 1 else 0 := by
  obtain ⟨hgetc, hinu16⟩ := countP_isRead_console s
  cases i
  case puts => exact absurd rfl hputs
  case getc => exact hgetc
  case inu16 => exact hinu16
  case trap vec =>
    have hreserved : vec.toNat ∉ [0x20, 0x21, 0x22, 0x26, 0x27] := by
      have hout := Decoder.outside_of_generic hwf
      simp only [List.mem_cons, List.not_mem_nil, or_false]
      omega
    have hnone : transactions (.trap vec) s = [] := trapTransactions_of_reserved hreserved s
    rw [hnone]
    rfl
  all_goals rfl

/-- The string among the transactions of PUTS is what its loop has read. -/
theorem scanString_of_mem_putsTransactions {s : State} {ws : List Word}
    (h : Transaction.consoleOut (.outString ws) ∈ putsTransactions s) :
    scanString memWords s.mem (s.readReg .r0) = some ws := by
  unfold putsTransactions at h
  rcases List.mem_append.mp h with hread | hevent
  · obtain ⟨a, -, ha⟩ := List.mem_map.mp hread
    cases ha
  · split at hevent
    case h_1 ws' hscan =>
      obtain rfl : ws = ws' := by simpa using hevent
      exact hscan
    case h_2 => cases hevent

/-- PUTS reads one word more than it sends (R55). -/
theorem countP_isRead_puts {s : State} {ws : List Word}
    (h : Transaction.consoleOut (.outString ws) ∈ transactions .puts s) :
    (transactions .puts s).countP Transaction.isRead = ws.length + 1 := by
  have hscan := scanString_of_mem_putsTransactions h
  have hreads (as : List Word) : (as.map Transaction.memRead).countP Transaction.isRead = as.length := by
    simp [Function.comp_def, Transaction.isRead]
  show (putsTransactions s).countP Transaction.isRead = ws.length + 1
  rw [putsTransactions, hscan, List.countP_append, hreads, length_scanReads hscan]
  rfl

/-- Settles O48: the writes, the reads, and the reads of PUTS. -/
theorem transactionCounts : Obligations.TransactionCounts :=
  fun s => ⟨fun i _ => countP_isWrite_transactions i s, fun _ hwf hputs => countP_isRead_transactions hwf hputs s,
    fun _ => countP_isRead_puts⟩

/-! Stores (20_memory.md R50, R51). -/

/-- No instruction of the TRAP opcode has a write among its transactions (44_trap.md R180). -/
theorem memWrite_not_mem_of_trap {i : Instr} {s : State} (h : i.handler = .trap) (a v : Word) :
    Transaction.memWrite a v ∉ transactions i s :=
  fun hmem => List.countP_eq_zero.mp (trap_writes_nothing i s h) _ hmem rfl

/-- An instruction with a write among its transactions is that write. -/
theorem exec_of_memWrite {i : Instr} {s : State} {a v : Word} (h : Transaction.memWrite a v ∈ transactions i s) :
    exec i s = .next (s.writeMem a v) := by
  cases hv : trapVector i with
  | some vec => exact absurd h (memWrite_not_mem_of_trap (handler_of_trapVector hv) a v)
  | none =>
    cases i <;> cases hv
    case none.st.refl | none.str.refl =>
      obtain ⟨rfl, rfl⟩ := Transaction.memWrite.inj (List.mem_singleton.mp h)
      rfl
    case none.sti.refl =>
      obtain hread | hwrite := List.mem_cons.mp h
      · cases hread
      · obtain ⟨rfl, rfl⟩ := Transaction.memWrite.inj (List.mem_singleton.mp hwrite)
        rfl
    case none.ld.refl | none.ldr.refl | none.ldi.refl => simp [transactions] at h -- reads only
    all_goals exact absurd h List.not_mem_nil

/-- Settles O51: the step that stores goes on to the next word, and the fetch there reads what was stored. -/
theorem storeIsSeenByNextFetch : Obligations.StoreIsSeenByNextFetch := by
  intro s t v hrun hpend h hmem
  have hwrite : Transaction.memWrite (s.pc + 1) v ∈ transactions (decode (fetchWord s)) s.afterFetch := by
    simp only [stepTransactions, hrun, hpend, if_true] at hmem
    exact (List.mem_cons.mp hmem).resolve_left (by simp)
  rw [step_fetch hrun hpend, exec_of_memWrite hwrite] at h
  obtain rfl := Host.Outcome.next.inj h
  have hfetch : fetchWord (s.afterFetch.writeMem (s.pc + 1) v) = v := State.readMem_writeMem_same ..
  refine ⟨rfl, ?_⟩
  rw [step_fetch (s := s.afterFetch.writeMem (s.pc + 1) v) hrun hpend, hfetch]

/-! What each handler may write (40_fetch_decode_dispatch.md R94). -/

theorem mayWriteRegs_of_flagDest {i : Instr} {dr : Reg} (h : flagDest i = some dr) : mayWriteRegs i = [dr] := by
  cases i <;> cases h <;> rfl

theorem mayWriteRegs_of_jsr {i : Instr} (h : i.handler = .jsr) : mayWriteRegs i = [.r7] := by
  cases i <;> cases h <;> rfl

/-- An instruction writes no register but those of its row in the table. -/
theorem exec_sameRegsBut {i : Instr} {s t : State} (h : exec i s = .next t) : sameRegsBut (mayWriteRegs i) s t := by
  intro r hr
  obtain ⟨dr, v, hd, rfl⟩ | ⟨-, -, a, v, rfl⟩ | ⟨-, -, rfl | ⟨v, rfl⟩⟩ | ⟨-, hjsr, v, rfl⟩ | ⟨-, -, rfl⟩ |
    ⟨-, -, vec, hv, rfl⟩ := exec_cases h
  · rw [mayWriteRegs_of_flagDest hd] at hr
    exact State.readReg_writeDest_other s dr r v (List.ne_of_not_mem_cons hr)
  · rfl
  · rfl
  · rfl
  · rw [mayWriteRegs_of_jsr hjsr] at hr
    exact readReg_link_other s (List.ne_of_not_mem_cons hr)
  · rfl
  · rw [mayWriteRegs_of_trapVector hv] at hr
    exact readReg_trapDispatch hr s

/-- An instruction that is no store leaves the memory. -/
theorem exec_mem_of_no_store {i : Instr} {s t : State} (h : exec i s = .next t)
    (hno : i.handler ∉ [.st, .sti, .str]) : t.mem = s.mem := by
  have hcount := countP_isWrite_transactions i s
  rw [if_neg hno] at hcount
  rw [exec_mem h, replayWrites_of_no_write hcount]

/-- An instruction that is no jump leaves the PC where the fetch put it. -/
theorem exec_pc_of_no_jump {i : Instr} {s t : State} (h : exec i s = .next t) (hbr : i.handler ≠ .br)
    (hjmp : i.handler ≠ .jmp) (hjsr : i.handler ≠ .jsr) : t.pc = s.pc := by
  obtain ⟨dr, v, -, rfl⟩ | ⟨-, -, a, v, rfl⟩ | ⟨-, hjump, -⟩ | ⟨-, hlink, -⟩ | ⟨-, -, rfl⟩ |
    ⟨-, -, vec, -, rfl⟩ := exec_cases h
  · rfl
  · rfl
  · exact absurd hjump (not_or.mpr ⟨hbr, hjmp⟩)
  · exact absurd hlink hjsr
  · rfl
  · exact trapDispatch_pc vec s

/-- An instruction but HALT leaves RUN. -/
theorem exec_run_of_ne_halt {i : Instr} {s t : State} (hwf : i.wellFormed = true) (h : exec i s = .next t)
    (hne : i ≠ .halt) : t.run = s.run := by
  obtain ⟨hr, -⟩ | ⟨hv, -⟩ := exec_control h
  · exact hr
  · exact absurd (eq_decodeTrap_of_trapVector hwf hv) hne

/-- Only TRAP touches the console, and only RTI and RES beside it the observer. -/
theorem exec_host_of_no_trap {i : Instr} {s t : State} (h : exec i s = .next t) (htrap : i.handler ≠ .trap) :
    sameConsole s t ∧ (i.handler ≠ .rti → i.handler ≠ .res → t.observer = s.observer) := by
  obtain ⟨dr, v, -, rfl⟩ | ⟨-, -, a, v, rfl⟩ | ⟨-, -, rfl | ⟨v, rfl⟩⟩ | ⟨-, -, v, rfl⟩ | ⟨-, hlog, rfl⟩ |
    ⟨-, hh, -⟩ := exec_cases h
  case inr.inr.inr.inr.inl =>
    exact ⟨⟨rfl, rfl, rfl⟩, fun hrti hres => absurd hlog (not_or.mpr ⟨hrti, hres⟩)⟩
  case inr.inr.inr.inr.inr => exact absurd hh htrap
  all_goals exact ⟨⟨rfl, rfl, rfl⟩, fun _ _ => rfl⟩

/-- Settles O44: the table of R94, column by column. -/
theorem handlersWriteOnlyTheirState : Obligations.HandlersWriteOnlyTheirState := by
  intro i s t hwf h
  refine ⟨exec_sameRegsBut h, exec_cond_of_flagDest_none h, fun hst hsti hstr => ?_, ⟨?_, fun a ha => ?_⟩,
    exec_pc_of_no_jump h, exec_run_of_ne_halt hwf h, exec_host_of_no_trap h⟩
  · exact State.readMem_of_mem (exec_mem_of_no_store h (by simp [hst, hsti, hstr]))
  · rw [countP_isWrite_transactions]
    split <;> decide
  · exact (congrArg (Memory.read · a) (exec_mem h)).trans (read_replayWrites ha s.mem)

/-! The words an instruction depends on (20_memory.md R42, R51). -/

/-- PUTS over a memory that agrees on the words it reads. -/
theorem trapPuts_withMem {s : State} {m : Memory}
    (h : ∀ a : Word, Transaction.memRead a ∈ putsTransactions s → m.read a = s.readMem a) :
    trapPuts { s with mem := m } = { trapPuts s with mem := m } := by
  have hscan : scanString memWords m (s.readReg .r0) = scanString memWords s.mem (s.readReg .r0) :=
    scanString_congr_reads fun b hb => h b (List.mem_append_left _ (List.mem_map_of_mem hb))
  obtain ⟨hnone, ht⟩ | ⟨ws, hsome, ht⟩ := trapPuts_cases s <;> rw [ht]
  · exact trapPuts_none { s with mem := m } (hscan.trans hnone)
  · exact trapPuts_some { s with mem := m } (hscan.trans hsome)

/-- A routine over a memory that agrees on the words its transactions read. -/
theorem trapDispatch_withMem {vec : BitVec 8} {s : State} {m : Memory}
    (h : ∀ a : Word, Transaction.memRead a ∈ trapTransactions vec s → m.read a = s.readMem a) :
    trapDispatch vec { s with mem := m } = { trapDispatch vec s with mem := m } := by
  unfold trapDispatch
  split
  case h_1 => exact trapGetc_withMem s m
  case h_3 hv =>
    obtain rfl : vec = 0x22 := BitVec.eq_of_toNat_eq hv
    exact trapPuts_withMem h
  case h_7 => exact trapInu16_withMem s m
  all_goals rfl -- the routines that neither read memory nor take an answer

/-- Settles O47: the loads and STI by the words they read, PUTS by the words of its loop, the others read none. -/
theorem instructionsReadOnlyTheirTransactions : Obligations.InstructionsReadOnlyTheirTransactions := by
  intro i s t m h hreads
  cases hv : trapVector i with
  | some vec =>
    rw [exec_of_trapVector s hv] at h
    obtain rfl := Host.Outcome.next.inj h
    rw [exec_of_trapVector _ hv, replayWrites_of_no_write (trap_writes_nothing i s (handler_of_trapVector hv)),
      trapDispatch_withMem (transactions_of_trapVector s hv ▸ hreads)]
  | none =>
    cases i <;> cases hv
    case none.br.refl nzp off =>
      rw [exec_br] at h
      obtain rfl := Host.Outcome.next.inj h
      exact exec_br nzp off { s with mem := m }
    case none.ld.refl dr off =>
      obtain rfl := Host.Outcome.next.inj h
      have hread := hreads (eaPc s off) List.mem_cons_self
      exact congrArg (fun v => Host.Outcome.next (State.writeDest { s with mem := m } dr v)) hread
    case none.ldr.refl dr base off =>
      obtain rfl := Host.Outcome.next.inj h
      have hread := hreads (eaBase s base off) List.mem_cons_self
      exact congrArg (fun v => Host.Outcome.next (State.writeDest { s with mem := m } dr v)) hread
    case none.ldi.refl dr off =>
      obtain rfl := Host.Outcome.next.inj h
      have hpointer : m.read (eaPc s off) = eaInd s off := hreads (eaPc s off) List.mem_cons_self
      have hread : m.read (m.read (eaPc s off)) = s.readMem (eaInd s off) :=
        hpointer ▸ hreads (eaInd s off) (List.mem_cons_of_mem _ List.mem_cons_self)
      exact congrArg (fun v => Host.Outcome.next (State.writeDest { s with mem := m } dr v)) hread
    case none.sti.refl sr off =>
      obtain rfl := Host.Outcome.next.inj h
      have hpointer : m.read (eaPc s off) = eaInd s off := hreads (eaPc s off) List.mem_cons_self
      exact congrArg (fun a => Host.Outcome.next (State.writeMem { s with mem := m } a (s.readReg sr))) hpointer
    all_goals
      obtain rfl := Host.Outcome.next.inj h
      rfl

end Sys2Proof.Proofs.TransactionLaws
end

section
namespace Sys2Proof.Proofs.Ports

open Sys2Proof Sys2Proof.Machine Sys2Proof.Proofs.Decoder Sys2Proof.Proofs.Trap Sys2Proof.Proofs.Instructions
  Sys2Proof.Proofs.TrapRoutines Sys2Proof.Proofs.Frames

/-! The observer (15_interfaces.md R35): what has been sent to it is read by nothing, and the same records follow. -/

/-- INU16 whatever the observer has received before. -/
theorem trapInu16_withObserver_logged (s : State) (l : List ObsRecord) :
    trapInu16 { s with observer := l } = { trapInu16 s with observer := l ++ (logged .inu16 s).map .log } := by
  obtain ⟨rs, hrs, h⟩ := trapInu16_withObserver s l
  obtain rfl : rs = (logged .inu16 s).map .log := List.append_cancel_left (hrs.symm.trans (trapInu16_observer s))
  exact h

/-- An instruction whatever the observer has received before: it sends its log events. -/
theorem exec_withObserver {i : Instr} {s t : State} (hwf : i.wellFormed = true) (h : exec i s = .next t)
    (l : List ObsRecord) :
    exec i { s with observer := l } = .next { t with observer := l ++ (logged i s).map .log } := by
  have quiet (hlog : logged i s = []) (hq : exec i { s with observer := l } = .next { t with observer := l }) :
      exec i { s with observer := l } = .next { t with observer := l ++ (logged i s).map .log } := by
    rw [hlog, List.map_nil, List.append_nil, hq]
  cases i
  case br nzp off =>
    rw [exec_br] at h
    obtain rfl := Host.Outcome.next.inj h
    exact quiet rfl (exec_br nzp off { s with observer := l })
  case getc =>
    obtain rfl := Host.Outcome.next.inj h
    exact quiet rfl (congrArg Host.Outcome.next (trapGetc_withObserver s l))
  case puts =>
    obtain rfl := Host.Outcome.next.inj h
    exact quiet rfl (congrArg Host.Outcome.next (trapPuts_withObserver s l))
  case inu16 =>
    obtain rfl := Host.Outcome.next.inj h
    exact congrArg Host.Outcome.next (trapInu16_withObserver_logged s l)
  case trap vec =>
    rw [exec_trap_of_outside (outside_of_generic hwf)] at h ⊢
    obtain rfl := Host.Outcome.next.inj h
    rfl
  case rti | res | inTrap | putsp =>
    obtain rfl := Host.Outcome.next.inj h
    rfl
  all_goals
    obtain rfl := Host.Outcome.next.inj h
    exact quiet rfl rfl

/-- An instruction sends the observer its log events and nothing else (60_exceptions.md R201). -/
theorem exec_observer {i : Instr} {s t : State} (hwf : i.wellFormed = true) (h : exec i s = .next t) :
    t.observer = s.observer ++ (logged i s).map .log :=
  congrArg State.observer (Host.Outcome.next.inj (h.symm.trans (exec_withObserver hwf h s.observer)))

theorem length_logged_le_one (i : Instr) (s : State) : (logged i s).length ≤ 1 := by
  unfold logged
  split
  case h_6 => split <;> simp -- INU16: an event if the line does not parse
  all_goals simp

/-- A routine taken up again whatever the observer has received before. -/
theorem resume_withObserver (p : Pending) (s : State) : ∃ rs, (rs = [] ∨ rs = [.log .hexParseFailure]) ∧
    ∀ l, resume p { s with observer := l } = { resume p s with observer := l ++ rs } := by
  cases p with
  | inByte => exact ⟨[], .inl rfl, fun l => (trapGetc_withObserver s l).trans (by rw [List.append_nil]; rfl)⟩
  | putsLoop => exact ⟨[], .inl rfl, fun l => (trapPuts_withObserver s l).trans (by rw [List.append_nil]; rfl)⟩
  | inLine =>
    refine ⟨_, ?_, trapInu16_withObserver_logged s⟩
    simp only [logged]
    split
    · exact .inr rfl
    · exact .inl rfl

/-- Settles O53: the record of the fetch and the log events of the instruction, or those of the routine alone. -/
theorem observerRecordsOfAStep : Obligations.ObserverRecordsOfAStep := by
  intro s t h hrun
  constructor
  · intro hpend
    rw [step_fetch hrun hpend] at h
    have hobs := exec_observer (decodedIsWellFormed _) h
    rw [State.afterFetch_observer, traceOf_eq] at hobs
    exact ⟨hobs, length_logged_le_one _ _⟩
  · intro hpend
    obtain ⟨p, hp⟩ := Option.ne_none_iff_exists'.mp hpend
    obtain rfl := Host.Outcome.next.inj ((step_resume hrun hp).symm.trans h)
    obtain ⟨rs, hrs, hall⟩ := resume_withObserver p s
    have hobs : (resume p s).observer = s.observer ++ rs := congrArg State.observer (hall s.observer)
    rw [hobs]
    exact hrs.imp (fun hnil => by rw [hnil, List.append_nil]) fun hlog => by rw [hlog]

/-- A step whatever the observer has received before: the same records follow. -/
theorem step_withObserver {s t : State} (h : step s = .next t) :
    ∃ rs, ∀ l, step { s with observer := l } = .next { t with observer := l ++ rs } := by
  obtain ⟨hidle, rfl⟩ | ⟨hrun, p, hpend, rfl⟩ | ⟨hrun, hpend, hexec⟩ := step_cases h
  · refine ⟨[], fun l => ?_⟩
    rw [List.append_nil]
    exact step_idle (s := { t with observer := l }) hidle
  · obtain ⟨rs, -, hall⟩ := resume_withObserver p s
    refine ⟨rs, fun l => ?_⟩
    rw [step_resume (s := { s with observer := l }) hrun hpend, hall l]
  · refine ⟨[.trace (traceOf s)] ++ (logged (decode (fetchWord s)) s.afterFetch).map .log, fun l => ?_⟩
    rw [step_fetch (s := { s with observer := l }) hrun hpend, ← List.append_assoc]
    exact exec_withObserver (decodedIsWellFormed _) hexec (l ++ [.trace (traceOf s)])

/-- Settles O54: two states that differ in the observer list alone are one state with two such lists. -/
theorem observerIsNeverRead : Obligations.ObserverIsNeverRead := by
  intro s₁ s₂ hsame
  obtain ⟨t, ht⟩ := everyStepAndInstructionAnswersNext.1 s₁
  obtain ⟨rs, hall⟩ := step_withObserver ht
  have hs₂ : s₂ = { s₁ with observer := s₂.observer } :=
    congrArg (fun s : State => { s with observer := s₂.observer }) hsame.symm
  exact ⟨{ t with observer := s₁.observer ++ rs }, { t with observer := s₂.observer ++ rs }, rs, rs,
    hall s₁.observer, (congrArg step hs₂).trans (hall s₂.observer), rfl, rfl, rfl, rfl⟩

/-! The console (15_interfaces.md R33, R34). -/

/-- GETC leaves the byte answers alone or takes the first of them into R0. -/
theorem trapGetc_byteAnswers (s : State) : (trapGetc s).byteAnswers = s.byteAnswers ∨
    ∃ b : Byte, s.byteAnswers = b :: (trapGetc s).byteAnswers ∧ (trapGetc s).readReg .r0 = b.setWidth 16 := by
  obtain ⟨-, h⟩ | ⟨b, rest, hb, -⟩ := trapGetc_cases s
  · rw [h]
    exact .inl rfl
  · obtain ⟨hr0, hrest, -⟩ := trapGetc_of_answer hb
    exact .inr ⟨b, by rw [hb, hrest], hr0⟩

/-- INU16 leaves the line answers alone or takes the first of them. -/
theorem trapInu16_lineAnswers (s : State) : (trapInu16 s).lineAnswers = s.lineAnswers ∨
    ∃ r : Option Word, s.lineAnswers = r :: (trapInu16 s).lineAnswers ∧
      (trapInu16 s).readReg .r0 = r.getD (s.readReg .r0) := by
  cases hl : s.lineAnswers with
  | nil =>
    rw [trapInu16_hold s hl]
    exact .inl hl
  | cons r rest =>
    obtain ⟨hr0, hrest, -⟩ := trapInu16_of_answer hl
    exact .inr ⟨r, by rw [hrest], hr0⟩

/-- PUTS sends nothing or one event. -/
theorem trapPuts_out_cases (s : State) : (trapPuts s).out = s.out ∨ ∃ e, (trapPuts s).out = s.out ++ [e] := by
  obtain ⟨-, h⟩ | ⟨ws, -, h⟩ := trapPuts_cases s <;> rw [h]
  · exact .inl rfl
  · exact .inr ⟨.outString ws, rfl⟩

/-- What an instruction does to the console: GETC and INU16 take an answer, the output grows by at most one event. -/
theorem exec_console {i : Instr} {s t : State} (hwf : i.wellFormed = true) (h : exec i s = .next t) :
    (t.byteAnswers = s.byteAnswers ∨
      (i = .getc ∧ ∃ b : Byte, s.byteAnswers = b :: t.byteAnswers ∧ t.readReg .r0 = b.setWidth 16)) ∧
    (t.lineAnswers = s.lineAnswers ∨
      (i = .inu16 ∧ ∃ r : Option Word, s.lineAnswers = r :: t.lineAnswers ∧
        t.readReg .r0 = r.getD (s.readReg .r0))) ∧
    (t.out = s.out ∨ ∃ e : OutEvent, t.out = s.out ++ [e]) := by
  by_cases htrap : i.handler = .trap
  · obtain ⟨vec, hv⟩ := exists_trapVector_of_handler htrap
    obtain rfl := Host.Outcome.next.inj ((exec_of_trapVector s hv).symm.trans h)
    obtain rfl := eq_decodeTrap_of_trapVector hwf hv
    obtain ⟨rfl, h⟩ | ⟨-, h⟩ | ⟨-, h⟩ | ⟨-, h⟩ | ⟨rfl, h⟩ | ⟨-, h⟩ | ⟨-, -, -, -, -, -, h⟩ :=
      trapDispatch_cases s vec <;> rw [h]
    · exact ⟨(trapGetc_byteAnswers s).imp_right fun htake => ⟨rfl, htake⟩, .inl (trapGetc_lineAnswers s),
        .inl (trapGetc_out s)⟩
    · exact ⟨.inl rfl, .inl rfl, .inr ⟨_, rfl⟩⟩
    · exact ⟨.inl (trapPuts_byteAnswers s), .inl (trapPuts_lineAnswers s), trapPuts_out_cases s⟩
    · exact ⟨.inl rfl, .inl rfl, .inl rfl⟩
    · exact ⟨.inl (trapInu16_byteAnswers s), (trapInu16_lineAnswers s).imp_right fun htake => ⟨rfl, htake⟩,
        .inl (trapInu16_out s)⟩
    · exact ⟨.inl rfl, .inl rfl, .inr ⟨_, rfl⟩⟩
    · exact ⟨.inl rfl, .inl rfl, .inl rfl⟩
  · obtain ⟨⟨hbytes, hlines, hout⟩, -⟩ := TransactionLaws.exec_host_of_no_trap h htrap
    exact ⟨.inl hbytes, .inl hlines, .inl hout⟩

/-- Settles O55: a fetched instruction, or the routine taken up again. -/
theorem consoleQueuesMoveInOrder : Obligations.ConsoleQueuesMoveInOrder := by
  intro s t h
  obtain ⟨-, rfl⟩ | ⟨-, p, hpend, rfl⟩ | ⟨-, hpend, hexec⟩ := step_cases h
  · exact ⟨.inl rfl, .inl rfl, .inl rfl⟩
  · cases p with
    | inByte => exact ⟨(trapGetc_byteAnswers s).imp_right fun htake => ⟨.inl hpend, htake⟩,
        .inl (trapGetc_lineAnswers s), .inl (trapGetc_out s)⟩
    | inLine => exact ⟨.inl (trapInu16_byteAnswers s),
        (trapInu16_lineAnswers s).imp_right fun htake => ⟨.inl hpend, htake⟩, .inl (trapInu16_out s)⟩
    | putsLoop => exact ⟨.inl (trapPuts_byteAnswers s), .inl (trapPuts_lineAnswers s), trapPuts_out_cases s⟩
  · obtain ⟨hbytes, hlines, hout⟩ := exec_console (decodedIsWellFormed _) hexec
    exact ⟨hbytes.imp_right fun htake => ⟨.inr ⟨hpend, htake.1⟩, htake.2⟩,
      hlines.imp_right fun htake => ⟨.inr ⟨hpend, htake.1⟩, htake.2⟩, hout⟩

end Sys2Proof.Proofs.Ports
end

section
namespace Sys2Proof.Proofs.Invariant

open Sys2Proof Sys2Proof.Machine Sys2Proof.Proofs.Frames

/-! The host's moves (15_interfaces.md R30, R31, R38). -/

/-- A reset request is accepted while `RUN = 0` (log 17). -/
theorem hostMove_reset_of_idle {s : State} (h : s.run = false) : hostMove .reset s = .next s.hostReset :=
  if_neg (by simp [h])

theorem hostMove_reset_of_running {s : State} (h : s.run = true) : hostMove .reset s = .refused .resetWhileRunning :=
  if_pos h

/-- A start is accepted while `RUN = 0` and no HALT has executed since reset (decision D20). -/
theorem hostMove_start_of_accepted {s : State} (hrun : s.run = false) (hhalted : s.halted = false) :
    hostMove .start s = .next s.begin :=
  if_pos (by simp [startAccepted, hrun, hhalted])

theorem hostMove_start_of_refused {s : State} (h : s.run = true ∨ s.halted = true) :
    hostMove .start s = .refused .startNotAccepted :=
  if_neg (by rcases h with h | h <;> simp [startAccepted, h])

theorem readReg_of_zero {s : State} (h : s.regs = Regs.zero) (r : Reg) : s.readReg r = 0x0000 := by
  rw [State.readReg, h]
  cases r <;> rfl

theorem readMem_of_nil {s : State} (h : s.mem = []) (a : Word) : s.readMem a = 0x0000 := by
  rw [State.readMem, h, Memory.read_nil]

/-- Settles O12: the two answers of the start request. -/
theorem startRequest : Obligations.StartRequest :=
  fun s => ⟨fun hrun hhalted => ⟨s.begin, hostMove_start_of_accepted hrun hhalted, rfl, rfl, rfl⟩,
    hostMove_start_of_refused⟩

/-- Settles O11: the values of R18 in the two reset states, from which a start is accepted. -/
theorem resetValues : Obligations.ResetValues := by
  refine ⟨⟨rfl, rfl, rfl, rfl⟩, fun s => ⟨hostMove_reset_of_running, fun hrun => ?_⟩⟩
  refine ⟨s.hostReset, hostMove_reset_of_idle hrun, ⟨⟨rfl, rfl, rfl⟩, rfl⟩, ?_⟩
  rintro u (rfl | rfl)
  all_goals
    exact ⟨readReg_of_zero rfl, rfl, rfl, rfl, readMem_of_nil rfl, _, hostMove_start_of_accepted rfl rfl, rfl⟩

/-- Settles O50: the values of reset; a machine that has ended is idle, and only a reset clears the halted mark. -/
theorem resetIsTheOnlyWayBack : Obligations.ResetIsTheOnlyWayBack := by
  refine fun s => ⟨fun hrun => ?_, hostMove_reset_of_running, fun ⟨hrun, hhalted⟩ => ⟨fun t h => ?_, fun mv t hne h => ?_⟩⟩
  · exact ⟨s.hostReset, hostMove_reset_of_idle hrun, readReg_of_zero rfl, rfl, rfl, rfl, readMem_of_nil rfl,
      fun hended => Bool.false_ne_true hended.2⟩
  · obtain rfl := Host.Outcome.next.inj ((step_idle hrun).symm.trans h)
    exact ⟨hrun, hhalted⟩
  · obtain ⟨rfl, -⟩ | ⟨-, image, -, -, rfl⟩ | ⟨-, -, hfresh, -⟩ | ⟨b, -, rfl⟩ | ⟨r, -, rfl⟩ := hostMove_cases h
    · exact absurd rfl hne
    · exact ⟨hrun, hhalted⟩
    · exact absurd hhalted (by simp [hfresh])
    · exact ⟨hrun, hhalted⟩
    · exact ⟨hrun, hhalted⟩

/-- Settles O60: of the accepted moves only the two answers do not ask for `RUN = 0`. -/
theorem hostLeavesRunningMachineAlone : Obligations.HostLeavesRunningMachineAlone := by
  intro m s t hrun h
  have hbusy : ¬ s.run = false := by simp [hrun]
  obtain ⟨-, hidle, -⟩ | ⟨hidle, -⟩ | ⟨-, hidle, -⟩ | ⟨b, rfl, rfl⟩ | ⟨r, hm, rfl⟩ := hostMove_cases h
  · exact absurd hidle hbusy
  · exact absurd hidle hbusy
  · exact absurd hidle hbusy
  · exact ⟨rfl, ⟨[b], rfl⟩, ⟨[], (List.append_nil _).symm⟩, by simp, by simp, by simp, by simp⟩
  · refine ⟨rfl, ⟨[], (List.append_nil _).symm⟩, ⟨[r], rfl⟩, ?_⟩
    obtain rfl | ⟨text, rfl⟩ := hm <;> exact ⟨by simp, by simp, by simp, by simp⟩

/-! The invariant (10_state.md R17, 44_trap.md R182, 70_reset_and_hazards.md R223). -/

/-- Settles O56: field by field. -/
theorem resetMeetsInvariant : Obligations.ResetMeetsInvariant :=
  ⟨State.reset_mem_wf, .inl rfl, fun hrun => absurd hrun Bool.false_ne_true, fun hpend => absurd rfl hpend⟩

/-- An instruction keeps the canonical form of memory. -/
theorem exec_mem_wf {i : Instr} {s t : State} (h : exec i s = .next t) (hwf : s.mem.wf) : t.mem.wf := by
  obtain ⟨dr, v, -, rfl⟩ | ⟨-, -, a, v, rfl⟩ | ⟨-, -, rfl | ⟨v, rfl⟩⟩ | ⟨-, -, v, rfl⟩ | ⟨-, -, rfl⟩ |
    ⟨-, -, vec, -, rfl⟩ := exec_cases h
  case inr.inl => exact Memory.wf_write hwf a v -- a store
  case inr.inr.inr.inr.inr => exact trapDispatch_mem vec s ▸ hwf
  all_goals exact hwf

/-- An instruction keeps COND legal. -/
theorem exec_condLegal {i : Instr} {s t : State} (h : exec i s = .next t) (hc : condLegal s.cond) :
    condLegal t.cond := by
  obtain ⟨-, hhot⟩ | ⟨-, hcond⟩ := exec_cond_cases h
  · exact .inr hhot
  · exact hcond ▸ hc

/-- An instruction of a running machine leaves it running and not halted, or stopped, halted and with the step complete. -/
theorem exec_control_inv {i : Instr} {s t : State} (h : exec i s = .next t) (hrun : s.run = true)
    (hhalted : s.halted = false) (hpend : s.pending = none) :
    (t.run = true ∧ t.halted = false) ∨ (t.run = false ∧ t.halted = true ∧ t.pending = none) := by
  obtain ⟨hr, hh⟩ | ⟨-, rfl⟩ := exec_control h
  · exact .inl ⟨hr.trans hrun, hh.trans hhalted⟩
  · exact .inr ⟨rfl, rfl, hpend⟩

/-- Settles O57: an idle step, a routine taken up again, an instruction. -/
theorem stepKeepsInvariant : Obligations.StepKeepsInvariant := by
  intro s t hinv h
  obtain ⟨hmem, hcond, hhalted, hpending⟩ := hinv
  obtain ⟨-, rfl⟩ | ⟨hrun, p, -, rfl⟩ | ⟨hrun, hpend, hexec⟩ := step_cases h
  · exact ⟨hmem, hcond, hhalted, hpending⟩
  · obtain ⟨-, hc, hm, hr, hh⟩ := resume_keeps p s
    exact ⟨hm ▸ hmem, hc ▸ hcond, fun _ => hh.trans (hhalted hrun), fun _ => hr.trans hrun⟩
  · refine ⟨exec_mem_wf hexec hmem, exec_condLegal hexec hcond, ?_⟩
    obtain ⟨hr, hh⟩ | ⟨hr, -, hp⟩ := exec_control_inv hexec hrun (hhalted hrun) hpend
    · exact ⟨fun _ => hh, fun _ => hr⟩
    · exact ⟨fun hr' => absurd (hr.symm.trans hr') Bool.false_ne_true, fun hne => absurd hp hne⟩

/-- Settles O58: a reset gives a state like the created one, a load a canonical memory, a start a machine not halted. -/
theorem hostMovesKeepInvariant : Obligations.HostMovesKeepInvariant := by
  intro m s t hinv h
  obtain ⟨hmem, hcond, hhalted, hpending⟩ := hinv
  obtain ⟨-, -, rfl⟩ | ⟨-, image, -, -, rfl⟩ | ⟨-, -, hfresh, rfl⟩ | ⟨b, -, rfl⟩ | ⟨r, -, rfl⟩ := hostMove_cases h
  · exact resetMeetsInvariant
  · exact ⟨Memory.wf_writeWords hmem origin image, hcond, hhalted, hpending⟩
  · exact ⟨hmem, hcond, fun _ => hfresh, fun _ => rfl⟩
  · exact ⟨hmem, hcond, hhalted, hpending⟩
  · exact ⟨hmem, hcond, hhalted, hpending⟩

/-! What a program begins with (70_reset_and_hazards.md R222). -/

/-- A machine that neither runs nor has halted has the registers, the PC and COND of reset. -/
def ZeroUntilStart (s : State) : Prop :=
  s.run = false → s.halted = false → (∀ r : Reg, s.readReg r = 0x0000) ∧ s.pc = 0x0000 ∧ s.cond = 0b000

theorem zeroUntilStart_of_run {s : State} (h : s.run = true) : ZeroUntilStart s :=
  fun hidle => absurd (h.symm.trans hidle) (by decide)

/-- A step does not lead back before the start: a machine stops by HALT, and is halted then. -/
theorem zeroUntilStart_step {s t : State} (hinv : s.Inv) (hzero : ZeroUntilStart s) (h : step s = .next t) :
    ZeroUntilStart t := by
  obtain ⟨-, -, hhalted, -⟩ := hinv
  obtain ⟨-, rfl⟩ | ⟨hrun, p, -, rfl⟩ | ⟨hrun, hpend, hexec⟩ := step_cases h
  · exact hzero
  · obtain ⟨-, -, -, hr, -⟩ := resume_keeps p s
    exact zeroUntilStart_of_run (hr.trans hrun)
  · obtain ⟨hr, -⟩ | ⟨-, hh, -⟩ := exec_control_inv hexec hrun (hhalted hrun) hpend
    · exact zeroUntilStart_of_run hr
    · exact fun _ hfresh => absurd (hh.symm.trans hfresh) (by decide)

/-- A move of the host resets the machine, starts it, or leaves registers, PC, COND, RUN and the halted mark alone. -/
theorem zeroUntilStart_hostMove {m : HostMove} {s t : State} (hzero : ZeroUntilStart s) (h : hostMove m s = .next t) :
    ZeroUntilStart t := by
  obtain ⟨-, -, rfl⟩ | ⟨-, image, -, -, rfl⟩ | ⟨-, -, -, rfl⟩ | ⟨b, -, rfl⟩ | ⟨r, -, rfl⟩ := hostMove_cases h
  · exact fun _ _ => ⟨readReg_of_zero rfl, rfl, rfl⟩
  · exact hzero
  · exact zeroUntilStart_of_run rfl
  · exact hzero
  · exact hzero

/-- Settles O59: by induction on how the state is reached. -/
theorem reachableStatesMeetInvariant : Obligations.ReachableStatesMeetInvariant := by
  intro s hreach
  change s.Inv ∧ ZeroUntilStart s
  induction hreach with
  | reset => exact ⟨resetMeetsInvariant, fun _ _ => ⟨readReg_of_zero rfl, rfl, rfl⟩⟩
  | step _ h ih => exact ⟨stepKeepsInvariant _ _ ih.1 h, zeroUntilStart_step ih.1 ih.2 h⟩
  | host m _ h ih => exact ⟨hostMovesKeepInvariant m _ _ ih.1 h, zeroUntilStart_hostMove ih.2 h⟩

end Sys2Proof.Proofs.Invariant
end
